-- ==== Sys2Proof/Word.lean ====
section
/-! DEFINITION. The word of the machine: every memory word, register and data value is 32 bits wide
(spec/00_scope.md R7 XLEN, R8; spec/92_eei_decisions.md D5). A word's signed value `s(w)` is `w.toInt`. -/

namespace Sys2Proof

/-- A 32-bit pattern (R8). -/
abbrev Word := BitVec 32

/-- The raw 8-bit `addr` field of an operand (R61, R65). -/
abbrev AddrField := BitVec 8

end Sys2Proof
end

