-- ==== Sys2Proof/Config.lean ====
section
/-! DEFINITION. The implementation parameters of spec/00_scope.md R7, their constraints, and the reference
configuration. A machine state carries its parameters in the field `cfg` (notes/assumptions/1.md), so that a
claim about every state is a claim about every configuration. INIT_REGS and INIT_MEM are the arguments of the
load (Machine/HostInterface.lean). There is no free value: 93_implementation_defined.md leaves none. -/

namespace Sys2Proof

/-- `DIV_ROUNDING` (R7, R138). -/
inductive DivRounding where
  | trunc
  | floor
  deriving DecidableEq, Repr

/-- The parameters of R7; addresses and sizes count words. -/
structure Config where
  /-- `MEM_SIZE`: valid addresses are `0 .. memSize - 1`. -/
  memSize : Nat
  /-- `PC_ORIGIN`: reset value of `PC` and first address of the instruction window. -/
  pcOrigin : Nat
  /-- `IWIN_SIZE`: number of words in the instruction window. -/
  iwinSize : Nat
  /-- `STACK_BASE`: reset value of `SPR` and `TSP`. -/
  stackBase : Nat
  /-- `NREGS`: the general registers are `R0 .. R(nregs-1)`. -/
  nregs : Nat
  divRounding : DivRounding
  deriving DecidableEq, Repr

/-- `IWIN_END = PC_ORIGIN + IWIN_SIZE` (R7). -/
def Config.iwinEnd (c : Config) : Nat := c.pcOrigin + c.iwinSize

/-- The constraints of R7. -/
def Config.wf (c : Config) : Bool :=
  decide (1 ≤ c.memSize) && decide (c.memSize ≤ 2147483647) && decide (1 ≤ c.iwinSize) &&
    decide (c.iwinEnd ≤ c.memSize) && decide (c.stackBase ≤ c.memSize) &&
    decide (1 ≤ c.nregs) && decide (c.nregs ≤ 256)

/-- The reference column of R7 (DESIGN CHOICE, notes/assumptions/1.md). -/
def Config.reference : Config where
  memSize := 256
  pcOrigin := 128
  iwinSize := 64
  stackBase := 192
  nregs := 256
  divRounding := .trunc

end Sys2Proof
end

