-- ==== Sys2Proof/Syntax.lean ====
section
/-! DEFINITION. The instructions as terms: one constructor per row of spec/opcode_table.json, each with the two
operand descriptors the decoder produces (spec/40_cycle.md R86). An operand an instruction does not use keeps
its bits, which nothing looks at (spec/30_encoding.md R67, R72; notes/assumptions/11.md). -/

namespace Sys2Proof

/-- The eight addressing modes, in the order of their tags 0 to 7 (spec/30_encoding.md R64). -/
inductive Mode where
  | registerDirect
  | registerIndirect
  | direct
  | indirect
  | indexed
  | immediate
  | stackPush
  | stackPop
  deriving DecidableEq, Repr

/-- A stack mode, the only kind whose read or write moves `TSP`. -/
def Mode.isStack : Mode → Bool
  | .stackPush | .stackPop => true
  | .registerDirect | .registerIndirect | .direct | .indirect | .indexed | .immediate => false

/-- An operand descriptor `(m, a)` (spec/41_addressing.md R100). -/
structure Operand where
  mode : Mode
  addr : AddrField
  deriving DecidableEq, Repr

/-- What the encoder writes for a missing operand: mode `000`, address `00000000` (R67). -/
def Operand.missing : Operand := ⟨.registerDirect, 0⟩

/-- The eighteen instructions (spec/30_encoding.md R66), operand 1 before operand 2. -/
inductive Instr where
  | add (o1 o2 : Operand)
  | sub (o1 o2 : Operand)
  | mul (o1 o2 : Operand)
  | div (o1 o2 : Operand)
  | mod (o1 o2 : Operand)
  | cmp (o1 o2 : Operand)
  | mov (o1 o2 : Operand)
  | push (o1 o2 : Operand)
  | pop (o1 o2 : Operand)
  | jmp (o1 o2 : Operand)
  | jeq (o1 o2 : Operand)
  | jne (o1 o2 : Operand)
  | jlt (o1 o2 : Operand)
  | jle (o1 o2 : Operand)
  | jgt (o1 o2 : Operand)
  | jge (o1 o2 : Operand)
  | eop (o1 o2 : Operand)
  | func (o1 o2 : Operand)
  deriving DecidableEq, Repr

/-- The descriptor in the fields `mode1`, `addr1`. -/
def Instr.op1 : Instr → Operand
  | .add o _ | .sub o _ | .mul o _ | .div o _ | .mod o _ | .cmp o _
  | .mov o _ | .push o _ | .pop o _
  | .jmp o _ | .jeq o _ | .jne o _ | .jlt o _ | .jle o _ | .jgt o _ | .jge o _
  | .eop o _ | .func o _ => o

/-- The descriptor in the fields `mode2`, `addr2`. -/
def Instr.op2 : Instr → Operand
  | .add _ o | .sub _ o | .mul _ o | .div _ o | .mod _ o | .cmp _ o
  | .mov _ o | .push _ o | .pop _ o
  | .jmp _ o | .jeq _ o | .jne _ o | .jlt _ o | .jle _ o | .jgt _ o | .jge _ o
  | .eop _ o | .func _ o => o

end Sys2Proof
end

