-- ==== Sys2Proof/Machine/State.lean ====
section
/-! DEFINITION. The machine's state as plain data (spec/10_state.md), its reset value (R24), and the reasons a step
can stop. -/

namespace Sys2Proof.Machine

/-- The content of a register that may hold nothing: `undef` (valid bit clear) or a 32-bit word (R10, R12). -/
inductive Reg where
  | undef
  | word (w : Word)
  deriving DecidableEq, Repr

/-- The outcome of a comparison (R16): the sign of the exact difference. -/
inductive Comparison where
  | less
  | equal
  | greater
  deriving DecidableEq, Repr

/-- The number `CR` holds for it: -1, 0 or +1 (R16). -/
def Comparison.value : Comparison → Int
  | .less => -1
  | .equal => 0
  | .greater => 1

/-- The comparison register `CR`: `undef` until the first CMP (R16; notes/assumptions/5.md). -/
inductive CompareReg where
  | undef
  | holds (c : Comparison)
  deriving DecidableEq, Repr

/-- Why the block is halted (R21; spec/40_cycle.md R88). -/
inductive HaltReason where
  | eop
  | zeroWord
  | windowExit
  | fault
  deriving DecidableEq, Repr

/-- The run state (R21). -/
inductive RunState where
  | running
  | halted (r : HaltReason)
  deriving DecidableEq, Repr

/-- The registers a condition can name (spec/60_exceptions.md R201, code 5). -/
inductive RegName where
  | r (n : AddrField)
  | i1
  | cr
  deriving DecidableEq, Repr

/-- A condition: its kind together with its info (spec/60_exceptions.md R201). -/
inductive Condition where
  /-- Code 1, non-fatal; info: the divisor's descriptor (R202). -/
  | divisionByZero (operand2 : Operand)
  /-- Code 2, non-fatal; info: the target's descriptor (R203). -/
  | overflow (operand1 : Operand)
  /-- Code 3, fatal; info: the fetched word (R204). -/
  | decodeFailure (w : Word)
  /-- Code 4, fatal; info: the offending address, an integer of any sign (R205). -/
  | outOfRange (address : Int)
  /-- Code 5, fatal; info: the register's name (R206). -/
  | undefinedRegister (name : RegName)
  /-- Code 6, fatal; info: the target's descriptor (R207). -/
  | invalidWriteTarget (operand1 : Operand)
  /-- Code 7, fatal; info: the value of `TSP` (R208). -/
  | stackUnderflow (tsp : Word)
  deriving DecidableEq, Repr

/-- The code numbers of R201. -/
def Condition.code : Condition → Nat
  | .divisionByZero _ => 1
  | .overflow _ => 2
  | .decodeFailure _ => 3
  | .outOfRange _ => 4
  | .undefinedRegister _ => 5
  | .invalidWriteTarget _ => 6
  | .stackUnderflow _ => 7

/-- The class column of R201. -/
def Condition.fatal : Condition → Bool
  | .divisionByZero _ | .overflow _ => false
  | .decodeFailure _ | .outOfRange _ | .undefinedRegister _ | .invalidWriteTarget _ | .stackUnderflow _ => true

/-- One record of the condition log (R22; spec/60_exceptions.md R200): the condition (code, kind and info;
notes/assumptions/9.md) and `iaddr`, the address of the instruction that caused it. -/
structure CondRecord where
  cond : Condition
  iaddr : Int
  deriving DecidableEq, Repr

/-- `Mem`: the words that differ from what an unlisted address reads as, by strictly rising address
(R20; notes/assumptions/2.md). -/
abbrev Memory := List (Nat × Word)

/-- Every piece of state the spec gives the machine (spec/10_state.md), and its parameters. -/
structure State where
  /-- The parameters of spec/00_scope.md R7; no step changes them (notes/assumptions/1.md). -/
  cfg : Config
  /-- `R0 .. R255`, of which the first `cfg.nregs` exist (R10). -/
  regs : Vector Reg 256
  /-- `PC` (R13). -/
  pc : Word
  /-- `IR` (R17). -/
  ir : Reg
  /-- `BR` (R19). -/
  br : Reg
  /-- `SPR`, the stack base (R15). -/
  spr : Word
  /-- `TSP`, the address of the next free stack slot (R15). -/
  tsp : Word
  /-- `I1`, the index base (R18). -/
  i1 : Reg
  /-- `I2` (R19). -/
  i2 : Reg
  /-- `CR` (R16). -/
  cr : CompareReg
  /-- `Mem` (R20). -/
  mem : Memory
  /-- The run state (R21). -/
  run : RunState
  /-- The condition log, oldest first (R22). -/
  conds : List CondRecord
  deriving DecidableEq, Repr

/-- The state when reset is released, before a load image, for any parameters (R24; spec/70_reset_and_hazards.md R230). -/
def State.resetFor (c : Config) : State where
  cfg := c
  regs := Vector.replicate 256 .undef
  pc := BitVec.ofNat 32 c.pcOrigin
  ir := .undef
  br := .undef
  spr := BitVec.ofNat 32 c.stackBase
  tsp := BitVec.ofNat 32 c.stackBase
  i1 := .undef
  i2 := .undef
  cr := .undef
  mem := []
  run := .running
  conds := []

/-- The machine right after reset, in the reference configuration (R7, R24). -/
def State.reset : State := State.resetFor Config.reference

/-- Why a step stops without a next state. A fatal condition of the machine is NOT one of these: it is a next state
whose run state is `Halted(Fault)` (spec/60_exceptions.md R211; notes/assumptions/8.md). -/
inductive Fault where
  /-- Raised by `step` alone, when the block is already halted: "From run state `Halted` there is no step"
  (spec/40_cycle.md R81). Safe: nothing can be proved to follow a halt (notes/assumptions/7.md). -/
  | alreadyHalted (r : HaltReason)
  deriving DecidableEq, Repr

/-- Why an instruction is refused. -/
inductive Refusal where
  /-- Raised by an arm of `exec` whose instruction has no meaning yet; no arm of this model does. Safe: it stops. -/
  | notModelled (mnemonic : String)
  deriving DecidableEq, Repr

/-- What a meaning answers. -/
abbrev Out := Host.Outcome State Fault Refusal

end Sys2Proof.Machine
end

