-- ==== Sys2Proof/Machine/Flags.lean ====
section
/-! DEFINITION. The arithmetic the instructions share: narrowing an exact result (spec/42_arithmetic.md R131),
division (R138), the comparison (R137) and the six jump conditions (spec/44_control_flow.md R161). -/

namespace Sys2Proof.Machine

/-- `-2^31 <= z <= 2^31 - 1` (R131). -/
def fitsWord (z : Int) : Bool := decide (-2147483648 ≤ z) && decide (z ≤ 2147483647)

/-- `pat(wrap32(z))`: the low 32 bits, two's complement (R8, R131). -/
def wrapWord (z : Int) : Word := BitVec.ofInt 32 z

/-- `quot(a, b)` (R138): the exact quotient rounded toward zero or toward minus infinity. -/
def quot (r : DivRounding) (a b : Int) : Int :=
  match r with
  | .trunc => Int.tdiv a b
  | .floor => Int.fdiv a b

/-- `OP` of DIV (R135); the zero divisor's record is the handler's. -/
def divResult (r : DivRounding) (a b : Int) : Int := if b = 0 then 0 else quot r a b

/-- `OP` of MOD (R136). -/
def modResult (r : DivRounding) (a b : Int) : Int := if b = 0 then 0 else a - quot r a b * b

/-- The sign of the exact difference (R137). -/
def compareWords (a b : Word) : Comparison :=
  if a.toInt < b.toInt then .less else if a.toInt = b.toInt then .equal else .greater

/-! ## `cond(CR)` (R161) -/

def condEq : Comparison → Bool
  | .equal => true
  | .less | .greater => false

def condNe : Comparison → Bool
  | .equal => false
  | .less | .greater => true

def condLt : Comparison → Bool
  | .less => true
  | .equal | .greater => false

def condLe : Comparison → Bool
  | .less | .equal => true
  | .greater => false

def condGt : Comparison → Bool
  | .greater => true
  | .less | .equal => false

def condGe : Comparison → Bool
  | .greater | .equal => true
  | .less => false

end Sys2Proof.Machine
end

