-- ==== Sys2Proof/Machine/Ops.lean ====
section
/-! DEFINITION. The named operations over state: memory, registers, the condition log, and taking a fatal condition.
Nothing outside this file writes a field of State but reset and the host's load. -/

namespace Sys2Proof.Machine

/-! ## Memory as a sorted list (notes/assumptions/2.md) -/

/-- What an address that is not listed reads as: a never-written word is zero after reset (spec/10_state.md R24). -/
def Memory.unlisted : Word := 0

def Memory.read : Memory → Nat → Word
  | [], _ => Memory.unlisted
  | (b, w) :: rest, a => if b = a then w else Memory.read rest a

/-- The list without any entry for `a`. -/
def Memory.erase : Memory → Nat → Memory
  | [], _ => []
  | (b, w) :: rest, a => if b = a then Memory.erase rest a else (b, w) :: Memory.erase rest a

/-- The list with `a` listed as `v`, before the first entry of a larger address. -/
def Memory.put : Memory → Nat → Word → Memory
  | [], a, v => [(a, v)]
  | (b, w) :: rest, a, v =>
    if a < b then (a, v) :: (b, w) :: rest
    else if a = b then (a, v) :: rest
    else (b, w) :: Memory.put rest a v

/-- Storing what an unlisted address reads as removes the entry, so equal memories are equal lists. -/
def Memory.write (m : Memory) (a : Nat) (v : Word) : Memory :=
  if v = Memory.unlisted then m.erase a else m.put a v

/-- Addresses at least `lo` and strictly rising, no entry equal to `Memory.unlisted`. -/
def Memory.wfFrom : Nat → Memory → Bool
  | _, [] => true
  | lo, (b, w) :: rest => decide (lo ≤ b) && decide (w ≠ Memory.unlisted) && Memory.wfFrom (b + 1) rest

/-- The canonical form. -/
def Memory.wf (m : Memory) : Bool := Memory.wfFrom 0 m

/-! ## Field updates -/

/-- The content of `R{i}`. -/
def State.reg (s : State) (i : AddrField) : Reg := s.regs[i.toNat]'i.isLt

def State.setReg (s : State) (i : AddrField) (r : Reg) : State := { s with regs := s.regs.set i.toNat r i.isLt }
def State.setPc (s : State) (pc : Word) : State := { s with pc := pc }
def State.setIr (s : State) (r : Reg) : State := { s with ir := r }
def State.setTsp (s : State) (tsp : Word) : State := { s with tsp := tsp }
def State.setCr (s : State) (r : CompareReg) : State := { s with cr := r }
def State.setMem (s : State) (m : Memory) : State := { s with mem := m }
def State.setRun (s : State) (r : RunState) : State := { s with run := r }
def State.addRecord (s : State) (r : CondRecord) : State := { s with conds := s.conds ++ [r] }

/-! ## Conditions (spec/60_exceptions.md) -/

/-- The address `A` of the instruction being executed: `PC` holds `A + 1` (spec/40_cycle.md R80, R85). -/
def State.instrAddr (s : State) : Int := (s.pc - 1).toInt

/-- `report K(info)`: append the record and go on (R200). -/
def State.report (c : Condition) (s : State) : State := s.addRecord ⟨c, s.instrAddr⟩

def State.reportIf (p : Bool) (c : Condition) (s : State) : State := if p then s.report c else s

/-- `halt(r)` (spec/40_cycle.md R80). -/
def State.halt (r : HaltReason) (s : State) : State := s.setRun (.halted r)

/-- Taking a fatal condition in the instruction at `iaddr`: the record is appended and the block halts with reason
`Fault`; nothing is saved elsewhere and control goes nowhere (R200, R211). -/
def State.raiseAt (iaddr : Int) (c : Condition) (s : State) : State := (s.addRecord ⟨c, iaddr⟩).halt .fault

/-- `raise K(info)` during execution (R211). There is no return from it: only reset leaves `Halted` (R213). -/
def State.raise (c : Condition) (s : State) : State := s.raiseAt s.instrAddr c

/-- Run `k` on the value of an access made in state `s`; a condition of the access is taken in `s`, so that what the
instruction did before stays done (spec/60_exceptions.md R212). -/
def State.attempt {α : Type} (s : State) (r : Except Condition α) (k : α → Out) : Out :=
  match r with
  | .error c => .next (s.raise c)
  | .ok a => k a

/-! ## The two memory primitives (spec/20_memory.md) -/

/-- `0 <= addr < MEM_SIZE` (R41, R42). -/
def State.inMemory (s : State) (addr : Int) : Bool := decide (0 ≤ addr) && decide (addr < s.cfg.memSize)

/-- `MemRead(addr, 32)` (R41). -/
def memRead (addr : Int) (s : State) : Except Condition Word :=
  if s.inMemory addr then .ok (s.mem.read addr.toNat) else .error (.outOfRange addr)

/-- `MemWrite(addr, 32, v)` (R42). -/
def memWrite (addr : Int) (v : Word) (s : State) : Except Condition State :=
  if s.inMemory addr then .ok (s.setMem (s.mem.write addr.toNat v)) else .error (.outOfRange addr)

/-! ## Register access (spec/41_addressing.md R101, R102) -/

/-- `R{i}` exists (spec/10_state.md R10). -/
def State.hasReg (s : State) (i : AddrField) : Bool := decide (i.toNat < s.cfg.nregs)

/-- The undefined check shared by every register a rule reads. -/
def Reg.get (name : RegName) : Reg → Except Condition Word
  | .undef => .error (.undefinedRegister name)
  | .word w => .ok w

/-- `x[i]` (R101). -/
def readReg (i : AddrField) (s : State) : Except Condition Word :=
  if s.hasReg i then (s.reg i).get (.r i) else .error (.undefinedRegister (.r i))

/-- `x[i] <- v` (R102). -/
def writeReg (i : AddrField) (v : Word) (s : State) : Except Condition State :=
  if s.hasReg i then .ok (s.setReg i (.word v)) else .error (.undefinedRegister (.r i))

end Sys2Proof.Machine
end

