-- ==== Sys2Proof/Machine/Operands.lean ====
section
/-! DEFINITION. The addressing resolver (spec/41_addressing.md): the stack primitives, the address each mode forms,
`resolveRead`, `resolveWrite`, and the auto-increment primitives. An access that raises leaves the state as it was,
so it answers the condition alone and the instruction takes it (`State.attempt`). -/

namespace Sys2Proof.Machine

/-! ## Field readings (spec/30_encoding.md R65) -/

/-- `zext_8(a)` as an address. -/
def zextAddr (a : AddrField) : Int := a.toNat

/-- `sext_8(a)`, the indexed displacement. -/
def sextAddr (a : AddrField) : Int := a.toInt

/-- `zext_8(a)` as a literal value (R110). -/
def literal (a : AddrField) : Word := a.setWidth 32

/-! ## Stack primitives -/

/-- `StackPush(v)` (R103): the write first, so that a failed push leaves `TSP` alone. -/
def stackPush (v : Word) (s : State) : Except Condition State :=
  (memWrite s.tsp.toInt v s).map fun t => t.setTsp (t.tsp + 1)

/-- `StackPop()` (R104). -/
def stackPop (s : State) : Except Condition (Word × State) :=
  if s.tsp.toInt ≤ s.spr.toInt then .error (.stackUnderflow s.tsp)
  else (memRead (s.tsp.toInt - 1) s).map fun v => (v, s.setTsp (s.tsp - 1))

/-! ## Addresses formed by the memory modes -/

/-- Mode 1: the register's signed value (R106, R114). -/
def registerAddress (a : AddrField) (s : State) : Except Condition Int :=
  (readReg a s).map BitVec.toInt

/-- Mode 3: the pointer cell's signed value, the first of the two dereferences (R108, R116). -/
def pointerAddress (a : AddrField) (s : State) : Except Condition Int :=
  (memRead (zextAddr a) s).map BitVec.toInt

/-- Mode 4: `I1 + sext_8(a)`, a mathematical integer (R109). -/
def indexedAddress (a : AddrField) (s : State) : Except Condition Int :=
  (s.i1.get .i1).map fun w => w.toInt + sextAddr a

/-- The word at an address a mode formed; no side effect. -/
def loadFrom (ea : Except Condition Int) (s : State) : Except Condition (Word × State) :=
  ea.bind fun a => (memRead a s).map fun v => (v, s)

/-! ## Reading an operand -/

/-- `resolveRead(m, a)` (R105 to R112): the value and the state after, or the condition raised. -/
def resolveRead (o : Operand) (s : State) : Except Condition (Word × State) :=
  match o.mode with
  | .registerDirect => (readReg o.addr s).map fun v => (v, s)
  | .registerIndirect => loadFrom (registerAddress o.addr s) s
  | .direct => loadFrom (.ok (zextAddr o.addr)) s
  | .indirect => loadFrom (pointerAddress o.addr s) s
  | .indexed => loadFrom (indexedAddress o.addr s) s
  | .immediate => .ok (literal o.addr, s)
  | .stackPush => (memRead s.tsp.toInt s).map fun v => (v, s.setTsp (s.tsp + 1))
  | .stackPop => stackPop s

/-! ## Writing an operand -/

/-- The place an operand names as a write target. -/
inductive Target where
  | register (i : AddrField)
  | cell (ea : Int)
  | freshSlot
  deriving DecidableEq, Repr

/-- Where `resolveWrite(m, a, _)` writes (R113 to R120); modes 4, 5 and 7 are no targets. -/
def writeTarget (o : Operand) (s : State) : Except Condition Target :=
  match o.mode with
  | .registerDirect => .ok (.register o.addr)
  | .registerIndirect => (registerAddress o.addr s).map .cell
  | .direct => .ok (.cell (zextAddr o.addr))
  | .indirect => (pointerAddress o.addr s).map .cell
  | .indexed => .error (.invalidWriteTarget o)
  | .immediate => .error (.invalidWriteTarget o)
  | .stackPush => .ok .freshSlot
  | .stackPop => .error (.invalidWriteTarget o)

/-- The address a target stores to; none for a register. -/
def Target.address (s : State) : Target → Option Int
  | .register _ => none
  | .cell ea => some ea
  | .freshSlot => some s.tsp.toInt

def storeTo (v : Word) (s : State) : Target → Except Condition State
  | .register i => writeReg i v s
  | .cell ea => memWrite ea v s
  | .freshSlot => stackPush v s

/-- `resolveWrite(m, a, v)` (R113 to R120). -/
def resolveWrite (o : Operand) (v : Word) (s : State) : Except Condition State :=
  (writeTarget o s).bind (storeTo v s)

/-! ## Auto-increment and auto-decrement (R121): defined, reached by no instruction (notes/assumptions/20.md) -/

/-- Fetch at the register's value, then adjust the register by `d`, wrapping silently (R121). -/
def resolveAuto (d : Word) (r : AddrField) (s : State) : Except Condition (Word × State) :=
  (readReg r s).bind fun p => (memRead p.toInt s).bind fun v => (writeReg r (p + d) s).map fun t => (v, t)

def resolveAutoInc (r : AddrField) (s : State) : Except Condition (Word × State) := resolveAuto 1 r s
def resolveAutoDec (r : AddrField) (s : State) : Except Condition (Word × State) := resolveAuto (-1) r s

end Sys2Proof.Machine
end

