-- ==== Sys2Proof/Machine/Arithmetic.lean ====
section
/-! DEFINITION. ADD, SUB, MUL, DIV, MOD and CMP (spec/42_arithmetic.md). -/

namespace Sys2Proof.Machine

/-- The reports of R130: `DivisionByZero` (for a dividing operator with a zero divisor), then `Overflow`. -/
def arithReports (divides : Bool) (o1 o2 : Operand) (b z : Int) (s : State) : State :=
  (s.reportIf (divides && decide (b = 0)) (.divisionByZero o2)).reportIf (!fitsWord z) (.overflow o1)

/-- The arithmetic handler (R130): read operand 1, then operand 2, apply the operator to the exact values, report,
write the wrapped result to operand 1. -/
def arithmetic (op : Int → Int → Int) (divides : Bool) (o1 o2 : Operand) (s : State) : Out :=
  s.attempt (resolveRead o1 s) fun (a, s1) =>
    s1.attempt (resolveRead o2 s1) fun (b, s2) =>
      let z := op a.toInt b.toInt
      let s3 := arithReports divides o1 o2 b.toInt z s2
      s3.attempt (resolveWrite o1 (wrapWord z) s3) .next

/-- R132. -/
def execAdd (o1 o2 : Operand) (s : State) : Out := arithmetic (· + ·) false o1 o2 s

/-- R133. -/
def execSub (o1 o2 : Operand) (s : State) : Out := arithmetic (· - ·) false o1 o2 s

/-- R134. -/
def execMul (o1 o2 : Operand) (s : State) : Out := arithmetic (· * ·) false o1 o2 s

/-- R135. -/
def execDiv (o1 o2 : Operand) (s : State) : Out := arithmetic (divResult s.cfg.divRounding) true o1 o2 s

/-- R136. -/
def execMod (o1 o2 : Operand) (s : State) : Out := arithmetic (modResult s.cfg.divRounding) true o1 o2 s

/-- R137: both reads, then `CR`; operand 1 is not written. -/
def execCmp (o1 o2 : Operand) (s : State) : Out :=
  s.attempt (resolveRead o1 s) fun (a, s1) =>
    s1.attempt (resolveRead o2 s1) fun (b, s2) =>
      .next (s2.setCr (.holds (compareWords a b)))

end Sys2Proof.Machine
end

