-- ==== Sys2Proof/Machine/ControlFlow.lean ====
section
/-! DEFINITION. JMP and the six conditional jumps (spec/44_control_flow.md). -/

namespace Sys2Proof.Machine

/-- Resolve the operand and load its value into `PC`, unchecked (R160). -/
def jumpTo (o1 : Operand) (s : State) : Out :=
  s.attempt (resolveRead o1 s) fun (t, s1) => .next (s1.setPc t)

/-- The conditional-jump handler (R161): the operand is resolved only when the jump is taken. -/
def conditionalJump (cond : Comparison → Bool) (o1 : Operand) (s : State) : Out :=
  match s.cr with
  | .undef => .next (s.raise (.undefinedRegister .cr))
  | .holds c => if cond c then jumpTo o1 s else .next s

/-- R160. -/
def execJmp (o1 : Operand) (s : State) : Out := jumpTo o1 s

/-- R162. -/
def execJeq (o1 : Operand) (s : State) : Out := conditionalJump condEq o1 s

/-- R163. -/
def execJne (o1 : Operand) (s : State) : Out := conditionalJump condNe o1 s

/-- R164. -/
def execJlt (o1 : Operand) (s : State) : Out := conditionalJump condLt o1 s

/-- R165. -/
def execJle (o1 : Operand) (s : State) : Out := conditionalJump condLe o1 s

/-- R166. -/
def execJgt (o1 : Operand) (s : State) : Out := conditionalJump condGt o1 s

/-- R167. -/
def execJge (o1 : Operand) (s : State) : Out := conditionalJump condGe o1 s

end Sys2Proof.Machine
end

