-- ==== Sys2Proof/Machine/DataMovement.lean ====
section
/-! DEFINITION. MOV, PUSH and POP (spec/43_data_movement.md). -/

namespace Sys2Proof.Machine

/-- R150: read operand 2, write operand 1; operand 1 is not read. -/
def execMov (o1 o2 : Operand) (s : State) : Out :=
  s.attempt (resolveRead o2 s) fun (v, s1) =>
    s1.attempt (resolveWrite o1 v s1) .next

/-- R151: read operand 1, then allocate the slot and store. -/
def execPush (o1 : Operand) (s : State) : Out :=
  s.attempt (resolveRead o1 s) fun (v, s1) =>
    s1.attempt (stackPush v s1) .next

/-- R152: pop, then resolve and write the target. -/
def execPop (o1 : Operand) (s : State) : Out :=
  s.attempt (stackPop s) fun (v, s1) =>
    s1.attempt (resolveWrite o1 v s1) .next

end Sys2Proof.Machine
end

