-- ==== Sys2Proof/Machine/ProgramControl.lean ====
section
/-! DEFINITION. EOP and FUNC (spec/45_program_control.md). -/

namespace Sys2Proof.Machine

/-- R175: `halt(EOP)`; nothing else changes. -/
def execEop (s : State) : Out := .next (s.halt .eop)

/-- R176: the same, with the same halt reason. -/
def execFunc (s : State) : Out := .next (s.halt .eop)

end Sys2Proof.Machine
end

