-- ==== Sys2Proof/Machine/Dispatch.lean ====
section
/-! DEFINITION. Dispatch by mnemonic (spec/40_cycle.md R87): one arm per instruction. The state given to `exec` has
`PC` already advanced (R85). -/

namespace Sys2Proof.Machine

def exec (i : Instr) (s : State) : Host.Outcome State Fault Refusal :=
  match i with
  | .add o1 o2 => Sys2Proof.Machine.execAdd o1 o2 s
  | .sub o1 o2 => Sys2Proof.Machine.execSub o1 o2 s
  | .mul o1 o2 => Sys2Proof.Machine.execMul o1 o2 s
  | .div o1 o2 => Sys2Proof.Machine.execDiv o1 o2 s
  | .mod o1 o2 => Sys2Proof.Machine.execMod o1 o2 s
  | .cmp o1 o2 => Sys2Proof.Machine.execCmp o1 o2 s
  | .mov o1 o2 => Sys2Proof.Machine.execMov o1 o2 s
  | .push o1 _ => Sys2Proof.Machine.execPush o1 s
  | .pop o1 _ => Sys2Proof.Machine.execPop o1 s
  | .jmp o1 _ => Sys2Proof.Machine.execJmp o1 s
  | .jeq o1 _ => Sys2Proof.Machine.execJeq o1 s
  | .jne o1 _ => Sys2Proof.Machine.execJne o1 s
  | .jlt o1 _ => Sys2Proof.Machine.execJlt o1 s
  | .jle o1 _ => Sys2Proof.Machine.execJle o1 s
  | .jgt o1 _ => Sys2Proof.Machine.execJgt o1 s
  | .jge o1 _ => Sys2Proof.Machine.execJge o1 s
  | .eop _ _ => Sys2Proof.Machine.execEop s
  | .func _ _ => Sys2Proof.Machine.execFunc s

end Sys2Proof.Machine
end

