-- ==== Sys2Proof/WellFormed.lean ====
section
/-! DEFINITION. Which instruction terms the machine can execute and which the encoder emits. Every term has a
word (spec/30_encoding.md R72); one of those words is the zero word, which the fetch unit never decodes. -/

namespace Sys2Proof

/-- Whether the instruction resolves its operand 1 (R67; the conditional jumps when taken). -/
def Instr.usesOp1 : Instr → Bool
  | .add _ _ | .sub _ _ | .mul _ _ | .div _ _ | .mod _ _ | .cmp _ _
  | .mov _ _ | .push _ _ | .pop _ _
  | .jmp _ _ | .jeq _ _ | .jne _ _ | .jlt _ _ | .jle _ _ | .jgt _ _ | .jge _ _ => true
  | .eop _ _ | .func _ _ => false

/-- Whether the instruction resolves its operand 2 (R67). -/
def Instr.usesOp2 : Instr → Bool
  | .add _ _ | .sub _ _ | .mul _ _ | .div _ _ | .mod _ _ | .cmp _ _ | .mov _ _ => true
  | .push _ _ | .pop _ _
  | .jmp _ _ | .jeq _ _ | .jne _ _ | .jlt _ _ | .jle _ _ | .jgt _ _ | .jge _ _
  | .eop _ _ | .func _ _ => false

/-- JMP and the conditional jumps. -/
def Instr.isJump : Instr → Bool
  | .jmp _ _ | .jeq _ _ | .jne _ _ | .jlt _ _ | .jle _ _ | .jgt _ _ | .jge _ _ => true
  | .add _ _ | .sub _ _ | .mul _ _ | .div _ _ | .mod _ _ | .cmp _ _
  | .mov _ _ | .push _ _ | .pop _ _ | .eop _ _ | .func _ _ => false

/-- The six conditional jumps. -/
def Instr.isConditionalJump : Instr → Bool
  | .jeq _ _ | .jne _ _ | .jlt _ _ | .jle _ _ | .jgt _ _ | .jge _ _ => true
  | .jmp _ _ | .add _ _ | .sub _ _ | .mul _ _ | .div _ _ | .mod _ _ | .cmp _ _
  | .mov _ _ | .push _ _ | .pop _ _ | .eop _ _ | .func _ _ => false

/-- The instructions whose operand 1 is a write target (R67, R122). -/
def Instr.writesOp1 : Instr → Bool
  | .add _ _ | .sub _ _ | .mul _ _ | .div _ _ | .mod _ _ | .mov _ _ | .pop _ _ => true
  | .cmp _ _ | .push _ _ | .jmp _ _ | .jeq _ _ | .jne _ _ | .jlt _ _ | .jle _ _ | .jgt _ _ | .jge _ _
  | .eop _ _ | .func _ _ => false

/-- Well-formed, that is executable: not `ADD R0, R0`, whose word is the zero word
(R70; spec/70_reset_and_hazards.md R236). -/
def Instr.wf (i : Instr) : Bool :=
  decide (i ≠ .add .missing .missing)

/-- An unused operand is zero-filled by the encoder (R67). -/
def Instr.unusedZero (i : Instr) : Bool :=
  (i.usesOp1 || decide (i.op1 = .missing)) && (i.usesOp2 || decide (i.op2 = .missing))

/-- A term the encoder emits: executable, unused operands zero (R67; spec/46_assembler.md R189). The decoder also
gives terms that are not canonical, and they run (R67). -/
def Instr.canonical (i : Instr) : Bool := i.wf && i.unusedZero

end Sys2Proof
end

