-- ==== Sys2Proof/Decode.lean ====
section
/-! DEFINITION. The decoder, total on any 32-bit word, and the encoder (spec/30_encoding.md). The bit positions,
the mode tags and the opcode numbers are those of R61, R64, R66 (the spec's decisions D1, D2, D3;
notes/assumptions/23.md). -/

namespace Sys2Proof

/-! ## Fields (R61, R62) -/

def catField (w : Word) : BitVec 2 := w.extractLsb' 30 2
def idxField (w : Word) : BitVec 3 := w.extractLsb' 27 3
def mode1Field (w : Word) : BitVec 3 := w.extractLsb' 24 3
def addr1Field (w : Word) : AddrField := w.extractLsb' 16 8
def mode2Field (w : Word) : BitVec 3 := w.extractLsb' 13 3
def addr2Field (w : Word) : AddrField := w.extractLsb' 5 8
def rsvdField (w : Word) : BitVec 5 := w.extractLsb' 0 5

/-! ## Mode tags (R64) -/

def modeOfTag (t : BitVec 3) : Mode :=
  match t.toNat with
  | 0 => .registerDirect
  | 1 => .registerIndirect
  | 2 => .direct
  | 3 => .indirect
  | 4 => .indexed
  | 5 => .immediate
  | 6 => .stackPush
  | _ => .stackPop

def modeTag : Mode → BitVec 3
  | .registerDirect => 0
  | .registerIndirect => 1
  | .direct => 2
  | .indirect => 3
  | .indexed => 4
  | .immediate => 5
  | .stackPush => 6
  | .stackPop => 7

/-! ## The opcode map (R66) -/

/-- The two-level table: category, then index in the category; `none` for the fourteen unassigned pairs of R68. -/
def opcodeTable (cat : BitVec 2) (idx : BitVec 3) : Option (Operand → Operand → Instr) :=
  match cat.toNat, idx.toNat with
  | 0, 0 => some .add
  | 0, 1 => some .sub
  | 0, 2 => some .mul
  | 0, 3 => some .div
  | 0, 4 => some .mod
  | 0, 5 => some .cmp
  | 1, 0 => some .mov
  | 1, 1 => some .push
  | 1, 2 => some .pop
  | 2, 0 => some .jmp
  | 2, 1 => some .jeq
  | 2, 2 => some .jne
  | 2, 3 => some .jlt
  | 2, 4 => some .jle
  | 2, 5 => some .jgt
  | 2, 6 => some .jge
  | 3, 0 => some .eop
  | 3, 1 => some .func
  | _, _ => none

/-- The 5-bit opcode number `op = cat*8 + idx` (R63, R66). -/
def Instr.opcode : Instr → Nat
  | .add _ _ => 0x00
  | .sub _ _ => 0x01
  | .mul _ _ => 0x02
  | .div _ _ => 0x03
  | .mod _ _ => 0x04
  | .cmp _ _ => 0x05
  | .mov _ _ => 0x08
  | .push _ _ => 0x09
  | .pop _ _ => 0x0A
  | .jmp _ _ => 0x10
  | .jeq _ _ => 0x11
  | .jne _ _ => 0x12
  | .jlt _ _ => 0x13
  | .jle _ _ => 0x14
  | .jgt _ _ => 0x15
  | .jge _ _ => 0x16
  | .eop _ _ => 0x18
  | .func _ _ => 0x19

/-! ## Decoding -/

/-- Why a word is no instruction; both are the fatal `DecodeFailure` (R68, R69; spec/40_cycle.md R86). -/
inductive DecodeReject where
  /-- The pair (`cat`, `idx`) is not in the table (R68). -/
  | unassignedOpcode (cat : BitVec 2) (idx : BitVec 3)
  /-- The opcode is assigned and the reserved field is not zero (R69). -/
  | reservedNotZero (rsvd : BitVec 5)
  deriving DecidableEq, Repr

def operand1 (w : Word) : Operand := ⟨modeOfTag (mode1Field w), addr1Field w⟩
def operand2 (w : Word) : Operand := ⟨modeOfTag (mode2Field w), addr2Field w⟩

/-- The extraction of R62 followed by the table of R66 (R72). The zero word gives `ADD R0, R0`: it is the fetch unit
that tests for it first (R70; spec/90_conflicts.md C10; notes/assumptions/10.md). -/
def decode (w : Word) : Except DecodeReject Instr :=
  match opcodeTable (catField w) (idxField w) with
  | none => .error (.unassignedOpcode (catField w) (idxField w))
  | some mk =>
    if rsvdField w = 0 then .ok (mk (operand1 w) (operand2 w))
    else .error (.reservedNotZero (rsvdField w))

/-! ## Encoding (R72) -/

/-- `op*2^27 + m1*2^24 + a1*2^16 + m2*2^13 + a2*2^5`, with `rsvd = 0` (R72). -/
def encodeFields (op m1 a1 m2 a2 : Nat) : Word :=
  BitVec.ofNat 32 (op * 2 ^ 27 + m1 * 2 ^ 24 + a1 * 2 ^ 16 + m2 * 2 ^ 13 + a2 * 2 ^ 5)

def encode (i : Instr) : Word :=
  encodeFields i.opcode (modeTag i.op1.mode).toNat i.op1.addr.toNat (modeTag i.op2.mode).toNat i.op2.addr.toNat

/-! ## The host's probe -/

/-- The instruction the decoder reads from a table row's `nbits` bits `w`; an instruction is one 32-bit word and
bit 0 is its least significant bit, so there is nothing to lay out (R60; spec/20_memory.md R44). -/
def decodeTableWord (nbits w : Nat) : Option Instr :=
  (decode (BitVec.ofNat 32 (w % 2 ^ nbits))).toOption

end Sys2Proof
end

