-- ==== Sys2Proof/Machine/Fetch.lean ====
section
/-! DEFINITION. The fetch unit, the program-counter advance and the decode stage of one step
(spec/40_cycle.md R80, R82 to R86). -/

namespace Sys2Proof.Machine

/-- The window check: `PC_ORIGIN <= PC < IWIN_END` (R82). -/
def State.inWindow (s : State) : Bool :=
  decide ((s.cfg.pcOrigin : Int) ≤ s.pc.toInt) && decide (s.pc.toInt < s.cfg.iwinEnd)

/-- `IR <- w` (R83). -/
def latch (w : Word) (s : State) : State := s.setIr (.word w)

/-- `PC <- PC + 1` (R85). -/
def advancePc (s : State) : State := s.setPc (s.pc + 1)

/-- What the stages before execution come to: the step is over, or an instruction is to be executed. -/
inductive Fetched where
  | ended (s : State)
  | execute (i : Instr) (s : State)

/-- Advance `PC`, then decode; a word that is no instruction raises `DecodeFailure` (R85, R86). -/
def decodeStage (w : Word) (s : State) : Fetched :=
  match decode w with
  | .ok i => .execute i (advancePc s)
  | .error _ => .ended ((advancePc s).raise (.decodeFailure w))

/-- Everything of a step before execution (R80): window check, fetch, zero-word test, PC advance, decode. A fetch
that passes the window check reads inside memory in every well-formed configuration (R82); in any other the
condition is taken as an access of the instruction at `PC` (notes/assumptions/16.md). -/
def fetch (s : State) : Fetched :=
  if s.inWindow then
    match memRead s.pc.toInt s with
    | .error c => .ended (s.raiseAt s.pc.toInt c)
    | .ok w => if w = 0 then .ended ((latch w s).halt .zeroWord) else decodeStage w (latch w s)
  else .ended (s.halt .windowExit)

/-- The state in which the next step fetches: running, `PC` inside the window (the origin if it was outside). -/
def State.readyToFetch (s : State) : State :=
  (if s.inWindow then s else s.setPc (BitVec.ofNat 32 s.cfg.pcOrigin)).setRun .running

/-- `w` stored at the address the next step fetches from (notes/assumptions/15.md). -/
def State.placeAtFetch (s : State) (w : Word) : State :=
  s.readyToFetch.setMem (s.readyToFetch.mem.write s.readyToFetch.pc.toInt.toNat w)

end Sys2Proof.Machine
end

