-- ==== Sys2Proof/Machine/Step.lean ====
section
/-! DEFINITION. One step of the block (spec/40_cycle.md R80, R81). -/

namespace Sys2Proof.Machine

/-- From `Running`: fetch, advance, decode, execute (R80). From `Halted` there is no step (R81). -/
def step (s : State) : Host.Outcome State Fault Refusal :=
  match s.run with
  | .halted r => .fault (.alreadyHalted r)
  | .running =>
    match fetch s with
    | .ended t => .next t
    | .execute i t => exec i t

/-- `s` with the table word `w` where the next step fetches. -/
def State.withFetchWord (s : State) (nbits w : Nat) : State :=
  s.placeAtFetch (BitVec.ofNat 32 (w % 2 ^ nbits))

end Sys2Proof.Machine
end

