-- ==== Sys2Proof/Machine/HostInterface.lean ====
section
/-! DEFINITION. What the outside world can do to the block (spec/00_scope.md R5; spec/70_reset_and_hazards.md R230 to
R232): reset it, load it while reset is held, read it. None of these is a step. -/

namespace Sys2Proof.Machine

/-- Asserting reset, from any state (R230): every piece of state takes its reset value; the parameters stay. -/
def assertReset (s : State) : State := State.resetFor s.cfg

/-- The registers INIT_REGS may preset (R231(3); spec/00_scope.md R7): not `PC`, `SPR`, `TSP`, `IR`, `CR`. -/
inductive PresetReg where
  | r (n : AddrField)
  | i1
  | i2
  | br
  deriving DecidableEq, Repr

/-- The load image (R231). -/
structure LoadImage where
  /-- The assembled program, word `k` for address `PC_ORIGIN + k`. -/
  program : List Word
  /-- INIT_MEM, applied in list order. -/
  initMem : List (Nat × Word)
  /-- INIT_REGS, applied in list order. -/
  initRegs : List (PresetReg × Word)
  deriving DecidableEq, Repr

/-- What R231 and R7 ask of an image: it fits the window, its addresses and its registers exist. -/
def LoadImage.wf (c : Config) (img : LoadImage) : Bool :=
  decide (img.program.length ≤ c.iwinSize) && img.initMem.all (fun p => decide (p.1 < c.memSize)) &&
    img.initRegs.all fun p => match p.1 with
      | .r n => decide (n.toNat < c.nregs)
      | .i1 | .i2 | .br => true

/-- The words at `base`, `base + 1`, ... -/
def storeWords : Nat → List Word → Memory → Memory
  | _, [], m => m
  | base, w :: ws, m => storeWords (base + 1) ws (m.write base w)

def storeCells : List (Nat × Word) → Memory → Memory
  | [], m => m
  | (a, w) :: rest, m => storeCells rest (m.write a w)

def presetReg (s : State) : PresetReg → Word → State
  | .r n, w => s.setReg n (.word w)
  | .i1, w => { s with i1 := .word w }
  | .i2, w => { s with i2 := .word w }
  | .br, w => { s with br := .word w }

def presetRegs : List (PresetReg × Word) → State → State
  | [], s => s
  | (r, w) :: rest, s => presetRegs rest (presetReg s r w)

/-- The load, in the order of R231: program, INIT_MEM, INIT_REGS. -/
def loadImage (img : LoadImage) (s : State) : State :=
  presetRegs img.initRegs (s.setMem (storeCells img.initMem (storeWords s.cfg.pcOrigin img.program s.mem)))

/-- Reset asserted, the image loaded, reset released: the state a run starts from (R5(a), R231). -/
def startWith (img : LoadImage) (s : State) : State := loadImage img (assertReset s)

/-- The status output (spec/00_scope.md R5(c)): the run state with its halt reason, and the condition log. -/
def statusOutput (s : State) : RunState × List CondRecord := (s.run, s.conds)

/-- The host may read the state only when the block is `Halted` (R232). -/
def hostRead (s : State) : Option State :=
  match s.run with
  | .running => none
  | .halted _ => some s

end Sys2Proof.Machine
end

