-- ==== Sys2Proof/Machine/Assembler.lean ====
section
/-! DEFINITION. The assembler and loader (spec/46_assembler.md): software beside the block, no part of a step. It is
modelled because it defines the pseudo-instructions and the image a run starts from. Text is a list of characters.
What R180 to R190 leave open is settled in notes/assumptions/19.md. -/

namespace Sys2Proof.Machine

abbrev Token := List Char

/-- Why a program is rejected at encode time (R181, R182, R187, R189); never a condition of the hardware (R190). -/
inductive ParseError where
  | unknownMnemonic (t : Token)
  | operandCount (mnemonic : Token)
  | illFormed (t : Token)
  | numberRange (t : Token)
  | zeroWord
  | programTooLong
  deriving DecidableEq, Repr

/-! ## Lines and tokens (R180) -/

def stripComment (line : List Char) : List Char := line.takeWhile fun c => c ≠ ';'

def splitLines : List Char → List Char → List (List Char)
  | [], acc => [acc.reverse]
  | c :: cs, acc => if c = '\n' then acc.reverse :: splitLines cs [] else splitLines cs (c :: acc)

def splitWords : List Char → List Char → List Token
  | [], acc => if acc = [] then [] else [acc.reverse]
  | c :: cs, acc =>
    if c.isWhitespace then (if acc = [] then splitWords cs [] else acc.reverse :: splitWords cs [])
    else splitWords cs (c :: acc)

/-- Trailing commas are stripped. -/
def stripCommas (t : Token) : Token := (t.reverse.dropWhile fun c => c = ',').reverse

/-- The mnemonic, then the operand tokens without their trailing commas. -/
def lineTokens (line : List Char) : List Token :=
  match splitWords (stripComment line) [] with
  | [] => []
  | m :: operands => m :: operands.map stripCommas

/-- The instruction lines of a text, as token lists; blank lines are ignored. -/
def tokenize (text : List Char) : List (List Token) :=
  ((splitLines text []).map lineTokens).filter fun l => l ≠ []

/-! ## Numbers and names -/

def allDigits (t : Token) : Bool := decide (t ≠ []) && t.all Char.isDigit

def decimalValue (t : Token) : Nat := t.foldl (fun n c => n * 10 + (c.toNat - '0'.toNat)) 0

/-- A negative decimal number: the only token with a leading `-` that is one; `-x` is a name (R182). That `-0` counts as
one is the model's choice: R182 does not say (DESIGN CHOICE, notes/assumptions/19.md). -/
def isNegative (t : Token) : Bool :=
  match t with
  | '-' :: n => allDigits n
  | _ => false

def isNumber (t : Token) : Bool := allDigits t || isNegative t

/-- A decimal number that must fit the 8-bit field: above 255 or negative is a ParseError (R182). -/
def parseField (t : Token) : Except ParseError AddrField :=
  if allDigits t then
    if decimalValue t ≤ 255 then .ok (BitVec.ofNat 8 (decimalValue t)) else .error (.numberRange t)
  else if isNegative t then .error (.numberRange t)
  else .error (.illFormed t)

/-- The class of an operand token; `indirect` and `direct` carry what stands for the address, a number or a name. -/
inductive TokenClass where
  | push
  | pop
  | literal (n : Token)
  | registerIndirect (n : Token)
  | indirect (address : Token)
  | register (n : Token)
  | direct (address : Token)
  deriving DecidableEq, Repr

/-- The order of R182: `push`, `pop`; leading `#`; `*R` or `@R` and digits; leading `*`; `R` and digits; all digits;
otherwise a name. The last two share `direct`. -/
def classify (t : Token) : TokenClass :=
  match t with
  | ['p', 'u', 's', 'h'] => .push
  | ['p', 'o', 'p'] => .pop
  | '#' :: n => .literal n
  | '*' :: 'R' :: n => if allDigits n then .registerIndirect n else .indirect ('R' :: n)
  | '@' :: 'R' :: n => if allDigits n then .registerIndirect n else .direct t
  | '*' :: n => .indirect n
  | 'R' :: n => if allDigits n then .register n else .direct t
  | _ => .direct t

/-- The Variable Table (R184): a name's address, the latest declaration first. -/
abbrev VarTable := List (Token × AddrField)

def VarTable.find : VarTable → Token → Option AddrField
  | [], _ => none
  | (n, a) :: rest, t => if n = t then some a else VarTable.find rest t

/-- A token that R182 classifies as a name: nothing before it in the order matches, and it is not empty. -/
def isName (t : Token) : Bool :=
  match classify t with
  | .direct u => !isNumber u && decide (u ≠ [])
  | .push | .pop | .literal _ | .registerIndirect _ | .indirect _ | .register _ => false

/-- What encoding one token gives: its descriptor and the unresolved names met (R185). -/
abbrev Encoded := Operand × List Token

/-- A name's address, or address 0 with an `UnresolvedSymbol` warning (R185); a token of no characters is ill-formed. -/
def nameOperand (mode : Mode) (vt : VarTable) (t : Token) : Except ParseError Encoded :=
  if t = [] then .error (.illFormed t)
  else
    match vt.find t with
    | some a => .ok (⟨mode, a⟩, [])
    | none => .ok (⟨mode, 0⟩, [t])

def fieldOperand (mode : Mode) (t : Token) : Except ParseError Encoded :=
  (parseField t).map fun a => (⟨mode, a⟩, [])

/-- A numeric address, otherwise a name (R182). -/
def addressOperand (mode : Mode) (vt : VarTable) (t : Token) : Except ParseError Encoded :=
  if isNumber t then fieldOperand mode t else nameOperand mode vt t

/-- The operand token grammar (R182). -/
def encodeOperand (vt : VarTable) (t : Token) : Except ParseError Encoded :=
  match classify t with
  | .push => .ok (⟨.stackPush, 0⟩, [])
  | .pop => .ok (⟨.stackPop, 0⟩, [])
  | .literal n => fieldOperand .immediate n
  | .registerIndirect n => fieldOperand .registerIndirect n
  | .indirect u => addressOperand .indirect vt u
  | .register n => fieldOperand .registerDirect n
  | .direct u => addressOperand .direct vt u

/-! ## Mnemonics and operand counts (R181) -/

/-- How many operand tokens a machine mnemonic takes, and its constructor. -/
def mnemonicTable : List (Token × Nat × (Operand → Operand → Instr)) :=
  [(['A', 'D', 'D'], 2, .add), (['S', 'U', 'B'], 2, .sub), (['M', 'U', 'L'], 2, .mul),
   (['D', 'I', 'V'], 2, .div), (['M', 'O', 'D'], 2, .mod), (['C', 'M', 'P'], 2, .cmp),
   (['M', 'O', 'V'], 2, .mov), (['P', 'U', 'S', 'H'], 1, .push), (['P', 'O', 'P'], 1, .pop),
   (['J', 'M', 'P'], 1, .jmp), (['J', 'E', 'Q'], 1, .jeq), (['J', 'N', 'E'], 1, .jne),
   (['J', 'L', 'T'], 1, .jlt), (['J', 'L', 'E'], 1, .jle), (['J', 'G', 'T'], 1, .jgt),
   (['J', 'G', 'E'], 1, .jge), (['E', 'O', 'P'], 0, .eop), (['F', 'U', 'N', 'C'], 0, .func)]

def findMnemonic (t : Token) :
    List (Token × Nat × (Operand → Operand → Instr)) → Option (Nat × (Operand → Operand → Instr))
  | [] => none
  | (n, x) :: rest => if n = t then some x else findMnemonic t rest

/-! ## The first pass (R183, R184) -/

def isConditionalJump (t : Token) : Bool :=
  t == ['J', 'E', 'Q'] || t == ['J', 'N', 'E'] || t == ['J', 'L', 'T'] || t == ['J', 'L', 'E'] ||
    t == ['J', 'G', 'T'] || t == ['J', 'G', 'E']

/-- One line: the lines it expands to and the declaration it makes (R183, R184); an empty entry is rejected (R181). -/
def preEncodeLine (line : List Token) : Except ParseError (List (List Token) × VarTable) :=
  match line with
  | [] => .error (.illFormed [])
  | ['D', 'E', 'F'] :: rest =>
    match rest with
    | [name, value] => if isName name then (parseField value).map fun a => ([], [(name, a)]) else .error (.illFormed name)
    | _ => .error (.operandCount ['D', 'E', 'F'])
  | [m, a, b, target] =>
    if isConditionalJump m then .ok ([[['C', 'M', 'P'], a, b], [m, target]], []) else .ok ([line], [])
  | _ => .ok ([line], [])

/-- `preEncode` (R187): every line normalised, every `DEF` collected, before any word is encoded. -/
def preEncode : List (List Token) → VarTable → Except ParseError (List (List Token) × VarTable)
  | [], vt => .ok ([], vt)
  | line :: rest, vt =>
    (preEncodeLine line).bind fun (out, defs) => (preEncode rest (defs ++ vt)).map fun (more, vt') => (out ++ more, vt')

/-! ## The second pass (R187) -/

/-- The instruction of a normalised line, missing operands zero-filled (R182). -/
def encodeTokens (vt : VarTable) (m : Token) (operands : List Token) : Except ParseError (Instr × List Token) :=
  match findMnemonic m mnemonicTable with
  | none => .error (.unknownMnemonic m)
  | some (n, mk) =>
    if operands.length = n then
      match operands with
      | [] => .ok (mk .missing .missing, [])
      | [a] => (encodeOperand vt a).map fun (o, w) => (mk o .missing, w)
      | a :: b :: _ =>
        (encodeOperand vt a).bind fun (o1, w1) => (encodeOperand vt b).map fun (o2, w2) => (mk o1 o2, w1 ++ w2)
    else .error (.operandCount m)

/-- One normalised line to its word; the zero word is refused (R189). -/
def encodeLine (vt : VarTable) (line : List Token) : Except ParseError (Word × List Token) :=
  match line with
  | [] => .error (.illFormed [])
  | m :: operands =>
    (encodeTokens vt m operands).bind fun (i, w) => if i.wf then .ok (encode i, w) else .error .zeroWord

def encodeLines (vt : VarTable) : List (List Token) → Except ParseError (List Word × List Token)
  | [] => .ok ([], [])
  | line :: rest =>
    (encodeLine vt line).bind fun (w, us) => (encodeLines vt rest).map fun (ws, more) => (w :: ws, us ++ more)

/-- The whole program: its words in order and the `UnresolvedSymbol` warnings; it must fit the window (R187). -/
def assemble (c : Config) (lines : List (List Token)) : Except ParseError (List Word × List Token) :=
  (preEncode lines []).bind fun (ls, vt) =>
    (encodeLines vt ls).bind fun r => if r.1.length ≤ c.iwinSize then .ok r else .error .programTooLong

/-- Assemble and load, with no INIT_MEM and no INIT_REGS, into a machine held in reset (R187, R231). -/
def assembleAndStart (lines : List (List Token)) (s : State) : Except ParseError State :=
  (assemble s.cfg lines).map fun r => startWith ⟨r.1, [], []⟩ s

end Sys2Proof.Machine
end

