-- ==== Sys2Proof/Safety.lean ====
section
/-! DEFINITION. The terms claims use: what an operand access needs and gives, written from the summary table of
spec/41_addressing.md R123 without the resolver's own code; the invariant of the machine; and what a safe run is. -/

namespace Sys2Proof.Machine

/-! ## What reading an operand needs and gives (R105 to R112) -/

/-- The word a defined register holds (only meant where `regFault` is none). -/
def Reg.value : Reg → Word
  | .undef => 0
  | .word w => w

/-- The word at an address (only meant where `cellFault` is none). -/
def State.cell (s : State) (a : Int) : Word := s.mem.read a.toNat

/-- The condition of reading `R{i}`: it must exist and be defined. -/
def regFault (i : AddrField) (s : State) : Option Condition :=
  if i.toNat < s.cfg.nregs ∧ s.reg i ≠ .undef then none else some (.undefinedRegister (.r i))

/-- The condition of accessing address `a`. -/
def cellFault (a : Int) (s : State) : Option Condition :=
  if 0 ≤ a ∧ a < s.cfg.memSize then none else some (.outOfRange a)

/-- The address of the word a memory operand names, for the five modes that name one by an address. -/
def memoryAddress (o : Operand) (s : State) : Int :=
  match o.mode with
  | .registerIndirect => (s.reg o.addr).value.toInt
  | .indirect => (s.cell o.addr.toNat).toInt
  | .indexed => s.i1.value.toInt + o.addr.toInt
  | .stackPush => s.tsp.toInt
  | .stackPop => s.tsp.toInt - 1
  | .direct | .registerDirect | .immediate => o.addr.toNat

/-- The first condition `resolveRead` raises, if any. -/
def readFault (o : Operand) (s : State) : Option Condition :=
  match o.mode with
  | .registerDirect => regFault o.addr s
  | .registerIndirect => (regFault o.addr s).or (cellFault (memoryAddress o s) s)
  | .direct => cellFault (memoryAddress o s) s
  | .indirect => (cellFault o.addr.toNat s).or (cellFault (memoryAddress o s) s)
  | .indexed => if s.i1 = .undef then some (.undefinedRegister .i1) else cellFault (memoryAddress o s) s
  | .immediate => none
  | .stackPush => cellFault (memoryAddress o s) s
  | .stackPop =>
    if s.tsp.toInt ≤ s.spr.toInt then some (.stackUnderflow s.tsp) else cellFault (memoryAddress o s) s

/-- The value read (where `readFault` is none). -/
def readValue (o : Operand) (s : State) : Word :=
  match o.mode with
  | .registerDirect => (s.reg o.addr).value
  | .immediate => BitVec.ofNat 32 o.addr.toNat
  | .registerIndirect | .direct | .indirect | .indexed | .stackPush | .stackPop => s.cell (memoryAddress o s)

/-- `TSP` after the read: the stack modes move it by one, the others leave it. -/
def tspAfterRead (o : Operand) (s : State) : Word :=
  match o.mode with
  | .stackPush => s.tsp + 1
  | .stackPop => s.tsp - 1
  | .registerDirect | .registerIndirect | .direct | .indirect | .indexed | .immediate => s.tsp

/-- The state after the read: nothing but `TSP` can differ. -/
def afterRead (o : Operand) (s : State) : State := { s with tsp := tspAfterRead o s }

/-! ## What writing an operand needs and gives (R113 to R120) -/

/-- The first condition `resolveWrite` raises, if any. -/
def writeFault (o : Operand) (s : State) : Option Condition :=
  match o.mode with
  | .registerDirect => if o.addr.toNat < s.cfg.nregs then none else some (.undefinedRegister (.r o.addr))
  | .registerIndirect => (regFault o.addr s).or (cellFault (memoryAddress o s) s)
  | .direct => cellFault (memoryAddress o s) s
  | .indirect => (cellFault o.addr.toNat s).or (cellFault (memoryAddress o s) s)
  | .stackPush => cellFault (memoryAddress o s) s
  | .indexed | .immediate | .stackPop => some (.invalidWriteTarget o)

/-- The state after the write (where `writeFault` is none): one register, or one memory word and, in mode 6, `TSP`. -/
def afterWrite (o : Operand) (v : Word) (s : State) : State :=
  match o.mode with
  | .registerDirect => s.setReg o.addr (.word v)
  | .registerIndirect | .direct | .indirect => { s with mem := s.mem.write (memoryAddress o s).toNat v }
  | .stackPush => { s with mem := s.mem.write s.tsp.toInt.toNat v, tsp := s.tsp + 1 }
  | .indexed | .immediate | .stackPop => s

/-! ## The condition log -/

/-- The state with `cs` appended to the log, each with the address of the instruction being executed. -/
def appendConds (cs : List Condition) (s : State) : State :=
  { s with conds := s.conds ++ cs.map fun c => ⟨c, (s.pc - 1).toInt⟩ }

/-- The records of the arithmetic handler: `Overflow` for a result `z` outside 32 bits (R131). -/
def overflowConds (o1 : Operand) (z : Int) : List Condition :=
  if z < -2147483648 ∨ 2147483647 < z then [.overflow o1] else []

/-! ## Jumps (spec/44_control_flow.md R161) -/

/-- The number in `CR`, if it holds one (R16). -/
def CompareReg.value : CompareReg → Option Int
  | .undef => none
  | .holds c => some c.value

/-- The taken column of R161, by the number in `CR`; JMP is always taken. -/
def takesJump (i : Instr) (s : State) : Bool :=
  match i with
  | .jmp _ _ => true
  | .jeq _ _ => s.cr.value == some 0
  | .jne _ _ => s.cr.value == some (-1) || s.cr.value == some 1
  | .jlt _ _ => s.cr.value == some (-1)
  | .jle _ _ => s.cr.value == some (-1) || s.cr.value == some 0
  | .jgt _ _ => s.cr.value == some 1
  | .jge _ _ => s.cr.value == some 0 || s.cr.value == some 1
  | .add _ _ | .sub _ _ | .mul _ _ | .div _ _ | .mod _ _ | .cmp _ _
  | .mov _ _ | .push _ _ | .pop _ _ | .eop _ _ | .func _ _ => false

/-! ## The invariant -/

/-- The log holds a fatal record exactly when the block is halted by a fault, and then it is the last one (R210, R211). -/
def State.logMatchesRun (s : State) : Prop :=
  match s.run with
  | .halted .fault => ∃ rs r, s.conds = rs ++ [r] ∧ r.cond.fatal = true ∧ ∀ x ∈ rs, x.cond.fatal = false
  | .running | .halted .eop | .halted .zeroWord | .halted .windowExit => ∀ x ∈ s.conds, x.cond.fatal = false

/-- What holds of every state a run reaches. -/
structure State.Inv (s : State) : Prop where
  /-- The parameters meet R7. -/
  cfg : s.cfg.wf = true
  /-- Memory is in canonical form. -/
  mem : s.mem.wf = true
  /-- Nothing is listed outside memory (R40). -/
  memBound : ∀ p ∈ s.mem, p.1 < s.cfg.memSize
  /-- `SPR` never changes after reset (R15). -/
  sprBase : s.spr.toInt = s.cfg.stackBase
  /-- `SPR <= TSP` (R15). -/
  stackOrder : s.spr.toInt ≤ s.tsp.toInt
  /-- `TSP <= MEM_SIZE` (R15). -/
  stackTop : s.tsp.toInt ≤ s.cfg.memSize
  /-- A register that does not exist holds nothing (R10, R12). -/
  absentRegs : ∀ i : AddrField, s.cfg.nregs ≤ i.toNat → s.reg i = .undef
  /-- The log agrees with the run state. -/
  log : s.logMatchesRun

/-! ## Safe runs (spec/40_cycle.md R88; spec/60_exceptions.md R200) -/

/-- The block stopped on a fatal condition. -/
def State.faulted (s : State) : Prop := s.run = .halted .fault

/-- Nothing went wrong so far: no record. -/
def State.clean (s : State) : Prop := s.conds = []

/-- "A program ran to its intended end" (R88). -/
def State.ranToEnd (s : State) : Prop := s.run = .halted .eop ∧ s.clean

/-- A state from which no sequence of steps ends in a fault. -/
def neverFaults (s : State) : Prop := ∀ n t, Sys2Proof.core.run n s = .next t → ¬ State.faulted t

/-! ## Registers no instruction uses -/

/-- The state with other contents in `IR`, `BR` and `I2`, which no instruction reads (R17, R19). -/
def State.withInert (ir br i2 : Reg) (s : State) : State := { s with ir := ir, br := br, i2 := i2 }

end Sys2Proof.Machine
end

