-- ==== Sys2Proof/Certificates/Slice0/Obligations.lean ====
section
/-! DEFINITION. The statements for the provers. Each says what the spec's numbered rules say the machine does; where a
sentence of the spec is marked as its own decision (92_eei_decisions.md D<n>) or as derived, the docstring names it and
the statement is listed as derived. `readFault`, `readValue`, `afterRead`, `writeFault` and `afterWrite` are the
contract of an operand access in Safety.lean, written without the resolver's code; the statements
`ReadingMeetsItsContract` and `WritingMeetsItsContract` tie the two together. -/

open Sys2Proof Sys2Proof.Machine

namespace Sys2Proof.Claims

/-- What one of the five arithmetic instructions does on every operand pair and in every state (R130): reads operand 1
then operand 2, computes `z`, appends `extra` and an `Overflow` record if `z` does not fit, writes the low 32 bits to
operand 1; the first condition on the way is taken in the state reached so far. -/
def ArithmeticRuns (i : Operand → Operand → Instr) (op : State → Int → Int → Int)
    (extra : Operand → Int → List Condition) : Prop :=
  ∀ (o1 o2 : Operand) (s : State),
    let s1 := afterRead o1 s
    let s2 := afterRead o2 s1
    let b := (readValue o2 s1).toInt
    let z := op s (readValue o1 s).toInt b
    let s3 := appendConds (extra o2 b ++ overflowConds o1 z) s2
    (∀ c, readFault o1 s = some c → exec (i o1 o2) s = .next (s.raise c)) ∧
    (readFault o1 s = none → ∀ c, readFault o2 s1 = some c → exec (i o1 o2) s = .next (s1.raise c)) ∧
    (readFault o1 s = none → readFault o2 s1 = none →
      ∀ c, writeFault o1 s3 = some c → exec (i o1 o2) s = .next (s3.raise c)) ∧
    (readFault o1 s = none → readFault o2 s1 = none → writeFault o1 s3 = none →
      exec (i o1 o2) s = .next (afterWrite o1 (BitVec.ofInt 32 z) s3))

/-- The opcode number in bits 31:27 of every word of the instruction (R63, R66). -/
def HasOpcode (i : Operand → Operand → Instr) (op : Nat) : Prop :=
  ∀ o1 o2, (encode (i o1 o2)).toNat / 2 ^ 27 = op

/-- Exact quotient by the rounding parameter (R138). -/
def quotient (s : State) (a b : Int) : Int :=
  match s.cfg.divRounding with
  | .trunc => Int.tdiv a b
  | .floor => Int.fdiv a b

/-- The state in which an instruction fetched by `step` executes: `IR` latched, `PC` advanced (R83, R85). -/
def executing (s : State) : State := { s with ir := .word (s.cell s.pc.toInt), pc := s.pc + 1 }

/-- `PC` is inside the instruction window (R82). -/
def InWindow (s : State) : Prop := (s.cfg.pcOrigin : Int) ≤ s.pc.toInt ∧ s.pc.toInt < s.cfg.pcOrigin + s.cfg.iwinSize

/-- Everything an operand write leaves alone besides its one register, its one word and `TSP`. -/
def SameSpecials (s t : State) : Prop :=
  t.cfg = s.cfg ∧ t.ir = s.ir ∧ t.br = s.br ∧ t.spr = s.spr ∧ t.i1 = s.i1 ∧ t.i2 = s.i2

/-- `t`'s log is `s`'s with records appended, and the run state is `s`'s or the halt of a fault. -/
def LogGrows (s t : State) : Prop := (∃ rs, t.conds = s.conds ++ rs) ∧ (t.run = s.run ∨ t.run = .halted .fault)

/-- The content of a register that INIT_REGS may preset. -/
def presetContent (r : PresetReg) (s : State) : Reg :=
  match r with
  | .r n => s.reg n
  | .i1 => s.i1
  | .i2 => s.i2
  | .br => s.br

end Sys2Proof.Claims

open Sys2Proof.Claims

/-! ## Encoding -/

/-- R72 whole: the word's formula, and the round trip in both directions. -/
def Obligations.DecodeInvertsEncode : Prop :=
  (∀ i : Instr, (encode i).toNat = i.opcode * 2 ^ 27 + (modeTag i.op1.mode).toNat * 2 ^ 24 + i.op1.addr.toNat * 2 ^ 16 +
    (modeTag i.op2.mode).toNat * 2 ^ 13 + i.op2.addr.toNat * 2 ^ 5) ∧
  (∀ i : Instr, decode (encode i) = .ok i) ∧
  (∀ (w : Word) (i : Instr), decode w = .ok i → encode i = w) ∧
  Operand.missing = ⟨.registerDirect, 0⟩

/-- Words written out in spec/95_test_vectors.md section 2.1 and spec/30_encoding.md section 5 decode to the
instructions they stand for, one for each mnemonic and each mode. -/
def Obligations.WrittenWordsDecode : Prop :=
  decode 0x00010040 = .ok (.add ⟨.registerDirect, 1⟩ ⟨.registerDirect, 2⟩) ∧
  decode 0x0801A020 = .ok (.sub ⟨.registerDirect, 1⟩ ⟨.immediate, 1⟩) ∧
  decode 0x10032080 = .ok (.mul ⟨.registerDirect, 3⟩ ⟨.registerIndirect, 4⟩) ∧
  decode 0x1A0560C0 = .ok (.div ⟨.direct, 5⟩ ⟨.indirect, 6⟩) ∧
  decode 0x20019FC0 = .ok (.mod ⟨.registerDirect, 1⟩ ⟨.indexed, 0xFE⟩) ∧
  decode 0x28010040 = .ok (.cmp ⟨.registerDirect, 1⟩ ⟨.registerDirect, 2⟩) ∧
  decode 0x4001A0A0 = .ok (.mov ⟨.registerDirect, 1⟩ ⟨.immediate, 5⟩) ∧
  decode 0x4600E000 = .ok (.mov ⟨.stackPush, 0⟩ ⟨.stackPop, 0⟩) ∧
  decode 0x48010000 = .ok (.push ⟨.registerDirect, 1⟩ .missing) ∧
  decode 0x50020000 = .ok (.pop ⟨.registerDirect, 2⟩ .missing) ∧
  decode 0x85830000 = .ok (.jmp ⟨.immediate, 131⟩ .missing) ∧
  decode 0x8D840000 = .ok (.jeq ⟨.immediate, 132⟩ .missing) ∧
  decode 0x90070000 = .ok (.jne ⟨.registerDirect, 7⟩ .missing) ∧
  decode 0x9D830000 = .ok (.jlt ⟨.immediate, 131⟩ .missing) ∧
  decode 0xA2140000 = .ok (.jle ⟨.direct, 20⟩ .missing) ∧
  decode 0xAB140000 = .ok (.jgt ⟨.indirect, 20⟩ .missing) ∧
  decode 0xB1030000 = .ok (.jge ⟨.registerIndirect, 3⟩ .missing) ∧
  decode 0xC0000000 = .ok (.eop .missing .missing) ∧
  decode 0xC8000000 = .ok (.func .missing .missing)

/-- A word is no instruction exactly when its (`cat`, `idx`) is one of the fourteen unassigned pairs or its reserved
field is not zero (R68, R69; that these halt is decided by D12, D17 and is `StepRaisesDecodeFailure`). -/
def Obligations.RejectedWordsAreExactlyTheseOnes : Prop :=
  ∀ w : Word, (∃ e, decode w = .error e) ↔
    (w.toNat / 2 ^ 30, w.toNat / 2 ^ 27 % 8) ∈
      [(0, 6), (0, 7), (1, 3), (1, 4), (1, 5), (1, 6), (1, 7), (2, 7), (3, 2), (3, 3), (3, 4), (3, 5), (3, 6), (3, 7)] ∨
    w.toNat % 32 ≠ 0

/-! ## The step -/

/-- A running step inside the window on a word that decodes is that instruction's meaning, in the state with the word
latched in `IR` and `PC` advanced (R80, R83, R85; the latch is decision D19, the window D11). -/
def Obligations.StepRunsTheDecodedInstruction : Prop :=
  ∀ (s : State) (i : Instr), s.cfg.wf = true → s.run = .running → InWindow s → s.cell s.pc.toInt ≠ 0 →
    decode (s.cell s.pc.toInt) = .ok i → step s = exec i (executing s)

/-- Outside the window the block halts and nothing else changes (R82; the window is decision D11). -/
def Obligations.StepHaltsOutsideTheWindow : Prop :=
  ∀ s : State, s.run = .running → ¬ InWindow s → step s = .next { s with run := .halted .windowExit }

/-- A zero word halts the block with `PC` not advanced and `IR` zero (R84; the bounded variant is decision D11). -/
def Obligations.StepHaltsOnAZeroWord : Prop :=
  ∀ s : State, s.cfg.wf = true → s.run = .running → InWindow s → s.cell s.pc.toInt = 0 →
    step s = .next { s with ir := .word 0, run := .halted .zeroWord }

/-- A word that is no instruction raises `DecodeFailure` with the word and its address, `PC` advanced, nothing else
changed (R86, R204; that it halts is decision D12). -/
def Obligations.StepRaisesDecodeFailure : Prop :=
  ∀ (s : State) (e : DecodeReject), s.cfg.wf = true → s.run = .running → InWindow s →
    decode (s.cell s.pc.toInt) = .error e →
    step s = .next { executing s with
      run := .halted .fault, conds := s.conds ++ [⟨.decodeFailure (s.cell s.pc.toInt), s.pc.toInt⟩] }

/-- From `Halted` there is no step (R81); that `step` says so by the fault `alreadyHalted` is the model's own form of answer
(notes/assumptions/7.md, DESIGN CHOICE). -/
def Obligations.HaltedBlockTakesNoStep : Prop :=
  ∀ (s : State) (r : HaltReason), s.run = .halted r → step s = .fault (.alreadyHalted r) ∧ ∀ t, step s ≠ .next t

/-- A running block always takes its step, whatever the state and the word fetched: no instruction is refused and none
is stuck (the fetch and the decoder are total; R71, R80). -/
def Obligations.RunningBlockAlwaysSteps : Prop :=
  ∀ s : State, s.run = .running → ∃ t, step s = .next t

/-- `PC` is advanced before execution and after a non-zero fetch; only a taken jump whose operand resolves leaves another
value; after a fatal condition `PC` holds `A + 1` and the record holds `A` (R85). When a jump is taken is R161, where the
suffixes' meaning is general knowledge (G2, notes/assumptions/22.md, PRESUMED; `CR` is decision D4), and the latch of `IR`
in `executing` is decision D19 (notes/assumptions/6.md, PRESUMED). -/
def Obligations.ProgramCounterAdvancesFirst : Prop :=
  ∀ s t : State, s.cfg.wf = true → s.run = .running → InWindow s → s.cell s.pc.toInt ≠ 0 → step s = .next t →
    (∀ i, decode (s.cell s.pc.toInt) = .ok i → step s = exec i (executing s) ∧ (executing s).pc = s.pc + 1 ∧
      (takesJump i (executing s) = true → readFault i.op1 (executing s) = none → t.pc = readValue i.op1 (executing s)) ∧
      (takesJump i (executing s) = false → t.pc = s.pc + 1)) ∧
    (t.run = .halted .fault → t.pc = s.pc + 1 ∧ ∃ r, t.conds.getLast? = some r ∧ r.iaddr = s.pc.toInt) ∧
    (t.run = .halted .eop → t.pc = s.pc + 1)

/-- R88: the block reaches `Halted` in exactly these ways, each with its `PC` and its record. -/
def Obligations.HaltsForExactlyTheseCauses : Prop :=
  ∀ s t : State, s.cfg.wf = true → s.run = .running → step s = .next t →
    (t.run = .halted .windowExit ↔ ¬ InWindow s) ∧
    (t.run = .halted .zeroWord ↔ InWindow s ∧ s.cell s.pc.toInt = 0) ∧
    (t.run = .halted .eop ↔ InWindow s ∧ ∃ o1 o2, decode (s.cell s.pc.toInt) = .ok (.eop o1 o2) ∨
      decode (s.cell s.pc.toInt) = .ok (.func o1 o2)) ∧
    (t.run = .halted .fault ↔ s.conds.length < t.conds.length ∧
      ∃ r, t.conds.getLast? = some r ∧ r.cond.code ∈ [3, 4, 5, 6, 7]) ∧
    (t.run = .halted .windowExit ∨ t.run = .halted .zeroWord → t.pc = s.pc ∧ t.conds = s.conds) ∧
    (t.run = .halted .eop → t.pc = s.pc + 1 ∧ t.conds = s.conds) ∧
    (t.run = .halted .fault → t.pc = s.pc + 1)

/-! ## Reset, load, the invariant -/

/-- Reset from any state gives the values of R24 (decision D20) with the parameters kept; `State.reset` is the reference
configuration of R7 (decision D25; notes/assumptions/1.md). -/
def Obligations.ResetHoldsTheStatedValues : Prop :=
  (∀ s : State, let t := assertReset s
    t.cfg = s.cfg ∧ t.pc = BitVec.ofNat 32 s.cfg.pcOrigin ∧ t.spr = BitVec.ofNat 32 s.cfg.stackBase ∧
    t.tsp = BitVec.ofNat 32 s.cfg.stackBase ∧ (∀ i, t.reg i = .undef) ∧ t.ir = .undef ∧ t.br = .undef ∧ t.i1 = .undef ∧
    t.i2 = .undef ∧ t.cr = .undef ∧ (∀ a, t.cell a = 0) ∧ t.run = .running ∧ t.conds = []) ∧
  State.reset.pc = 128 ∧ State.reset.spr = 192 ∧ State.reset.tsp = 192 ∧ State.reset.cfg.memSize = 256 ∧
  State.reset.cfg.iwinSize = 64 ∧ State.reset.cfg.nregs = 256 ∧ State.reset.cfg.divRounding = .trunc

/-- The invariant holds right after reset. -/
def Obligations.ResetMeetsTheInvariant : Prop := State.reset.Inv

/-- The invariant holds of the state a run starts from, for every well-formed configuration and load image (R231;
decision D20). -/
def Obligations.StartedBlockMeetsTheInvariant : Prop :=
  ∀ (s : State) (img : LoadImage), s.cfg.wf = true → img.wf s.cfg = true → (startWith img s).Inv

/-- Every step keeps the invariant, from every state that meets it: memory stays canonical and inside MEM_SIZE,
`SPR` stays STACK_BASE, `SPR <= TSP <= MEM_SIZE` (R15), absent registers stay empty, the log agrees with the run state
(R210, R211), the parameters stay legal. -/
def Obligations.EveryStepKeepsTheInvariant : Prop :=
  ∀ s t : State, s.Inv → step s = .next t → t.Inv

/-- The load image (R231; decision D20): the program from PC_ORIGIN on, INIT_MEM over it, INIT_REGS, everything else at
its reset value. R231 orders these three parts; that among the entries of INIT_MEM, and of INIT_REGS, the last one of an
address or register wins, and what is loaded from an image outside the limits of `LoadImage.wf`, is the model's choice
(notes/assumptions/18.md, DESIGN CHOICE). -/
def Obligations.LoadImageIsPlaced : Prop :=
  ∀ (s : State) (img : LoadImage), s.cfg.wf = true → let t := startWith img s
    (∀ (k : Nat) (h : k < img.program.length), (∀ p ∈ img.initMem, p.1 ≠ s.cfg.pcOrigin + k) →
      t.mem.read (s.cfg.pcOrigin + k) = img.program[k]) ∧
    (∀ (a : Nat) (v : Word) (pre post : List (Nat × Word)), img.initMem = pre ++ (a, v) :: post →
      (∀ p ∈ post, p.1 ≠ a) → t.mem.read a = v) ∧
    (∀ a : Nat, (∀ p ∈ img.initMem, p.1 ≠ a) →
      (a < s.cfg.pcOrigin ∨ s.cfg.pcOrigin + img.program.length ≤ a) → t.mem.read a = 0) ∧
    (∀ (r : PresetReg) (v : Word) (pre post : List (PresetReg × Word)), img.initRegs = pre ++ (r, v) :: post →
      (∀ p ∈ post, p.1 ≠ r) → presetContent r t = .word v) ∧
    (∀ r : PresetReg, (∀ p ∈ img.initRegs, p.1 ≠ r) → presetContent r t = .undef) ∧
    t.pc.toInt = s.cfg.pcOrigin ∧ t.spr.toInt = s.cfg.stackBase ∧ t.tsp.toInt = s.cfg.stackBase ∧
    t.ir = .undef ∧ t.cr = .undef ∧ t.run = .running ∧ t.conds = []

/-! ## Memory and registers -/

/-- `MemRead` (R41; that `OutOfRange` is fatal is decision D13, in `TakingACondition`). -/
def Obligations.MemoryReadIsRangeChecked : Prop :=
  ∀ (s : State) (a : Int),
    (a < 0 ∨ s.cfg.memSize ≤ a → memRead a s = .error (.outOfRange a)) ∧
    (0 ≤ a → a < s.cfg.memSize → memRead a s = .ok (s.cell a))

/-- `MemWrite` (R42): the same range check, no address protected, exactly one word changed. -/
def Obligations.MemoryWriteChangesOneWord : Prop :=
  ∀ (s : State) (a : Int) (v : Word),
    (a < 0 ∨ s.cfg.memSize ≤ a → memWrite a v s = .error (.outOfRange a)) ∧
    (0 ≤ a → a < s.cfg.memSize → ∃ t, memWrite a v s = .ok t ∧ memRead a t = .ok v ∧
      (∀ b : Int, 0 ≤ b → b ≠ a → memRead b t = memRead b s) ∧ t = { s with mem := t.mem })

/-- Memories in canonical form that read alike are equal (the model's representation, notes/assumptions/2.md). -/
def Obligations.CanonicalMemoriesAreEqualWhenTheyReadAlike : Prop :=
  ∀ m m' : Memory, m.wf = true → m'.wf = true → (∀ a, m.read a = m'.read a) → m = m'

/-- Register access (R101, R102; decisions D10, D13): a read needs the register to exist and be defined; a write needs it
to exist, defines it, and changes no other register. -/
def Obligations.RegisterAccessIsChecked : Prop :=
  ∀ (s : State) (i : AddrField) (v : Word),
    (s.cfg.nregs ≤ i.toNat → readReg i s = .error (.undefinedRegister (.r i)) ∧
      writeReg i v s = .error (.undefinedRegister (.r i))) ∧
    (s.reg i = .undef → readReg i s = .error (.undefinedRegister (.r i))) ∧
    (i.toNat < s.cfg.nregs → ∀ w, s.reg i = .word w → readReg i s = .ok w) ∧
    (i.toNat < s.cfg.nregs → ∃ t, writeReg i v s = .ok t ∧ readReg i t = .ok v ∧
      (∀ j, j ≠ i → t.reg j = s.reg j) ∧ t = { s with regs := t.regs })

/-! ## The addressing resolver -/

/-- Reads in modes 0 to 4 and 7 (R105 to R109, R112): the value, the side effect and the conditions in their order. When a
pop underflows and when it succeeds is R104, decision D15 (notes/assumptions/23.md). -/
def Obligations.ReadFollowsTheModeTable : Prop :=
  ∀ (s : State) (a : AddrField),
    (resolveRead ⟨.registerDirect, a⟩ s = (readReg a s).map fun v => (v, s)) ∧
    (∀ c, readReg a s = .error c → resolveRead ⟨.registerIndirect, a⟩ s = .error c) ∧
    (∀ x, readReg a s = .ok x → resolveRead ⟨.registerIndirect, a⟩ s = (memRead x.toInt s).map fun v => (v, s)) ∧
    (resolveRead ⟨.direct, a⟩ s = (memRead a.toNat s).map fun v => (v, s)) ∧
    (∀ c, memRead a.toNat s = .error c → resolveRead ⟨.indirect, a⟩ s = .error c) ∧
    (∀ p, memRead a.toNat s = .ok p → resolveRead ⟨.indirect, a⟩ s = (memRead p.toInt s).map fun v => (v, s)) ∧
    (s.i1 = .undef → resolveRead ⟨.indexed, a⟩ s = .error (.undefinedRegister .i1)) ∧
    (∀ x, s.i1 = .word x →
      resolveRead ⟨.indexed, a⟩ s = (memRead (x.toInt + a.toInt) s).map fun v => (v, s)) ∧
    (resolveRead ⟨.stackPop, a⟩ s = stackPop s) ∧
    (s.tsp.toInt ≤ s.spr.toInt → stackPop s = .error (.stackUnderflow s.tsp)) ∧
    (s.spr.toInt < s.tsp.toInt → 0 ≤ s.tsp.toInt - 1 → s.tsp.toInt - 1 < s.cfg.memSize →
      stackPop s = .ok (s.cell (s.tsp.toInt - 1), { s with tsp := s.tsp - 1 })) ∧
    (∀ v t, stackPop s = .ok (v, t) → memRead (s.tsp.toInt - 1) s = .ok v ∧ t = { s with tsp := s.tsp - 1 })

/-- The literal is unsigned (R110, decision D9) and a read through stack-push returns the slot's content and moves
`TSP` (R111, decision D16; notes/assumptions/12.md). -/
def Obligations.LiteralAndPushModeReads : Prop :=
  ∀ (s : State) (a : AddrField),
    (∃ v, resolveRead ⟨.immediate, a⟩ s = .ok (v, s) ∧ v.toInt = a.toNat) ∧
    (s.tsp.toInt < 0 ∨ s.cfg.memSize ≤ s.tsp.toInt →
      resolveRead ⟨.stackPush, a⟩ s = .error (.outOfRange s.tsp.toInt)) ∧
    (0 ≤ s.tsp.toInt → s.tsp.toInt < s.cfg.memSize →
      resolveRead ⟨.stackPush, a⟩ s = .ok (s.cell s.tsp.toInt, { s with tsp := s.tsp + 1 }))

/-- The resolver's reads are the contract of Safety.lean in every mode and every state (the summary R123 is marked
derived): the first condition, or the value and the state after. -/
def Obligations.ReadingMeetsItsContract : Prop :=
  ∀ (o : Operand) (s : State),
    (∀ c, readFault o s = some c → resolveRead o s = .error c) ∧
    (readFault o s = none → resolveRead o s = .ok (readValue o s, afterRead o s))

/-- R113 to R116 and R119, each whole; the freshly allocated slot of mode 6 is the word at `TSP`, and `TSP` advances. -/
def Obligations.WriteFollowsTheModeTable : Prop :=
  ∀ (s : State) (a : AddrField) (v : Word),
    (resolveWrite ⟨.registerDirect, a⟩ v s = writeReg a v s) ∧
    (∀ t, writeReg a v s = .ok t → t.reg a = .word v) ∧
    (∀ c, readReg a s = .error c → resolveWrite ⟨.registerIndirect, a⟩ v s = .error c) ∧
    (∀ x, readReg a s = .ok x → resolveWrite ⟨.registerIndirect, a⟩ v s = memWrite x.toInt v s) ∧
    (resolveWrite ⟨.direct, a⟩ v s = memWrite a.toNat v s) ∧
    (∀ c, memRead a.toNat s = .error c → resolveWrite ⟨.indirect, a⟩ v s = .error c) ∧
    (∀ p, memRead a.toNat s = .ok p → resolveWrite ⟨.indirect, a⟩ v s = memWrite p.toInt v s) ∧
    (resolveWrite ⟨.stackPush, a⟩ v s = stackPush v s) ∧
    (∀ o x, exec (.mov ⟨.stackPush, a⟩ o) s = exec (.push o x) s) ∧
    (0 ≤ s.tsp.toInt → s.tsp.toInt < s.cfg.memSize →
      stackPush v s = .ok { s with mem := s.mem.write s.tsp.toInt.toNat v, tsp := s.tsp + 1 }) ∧
    (s.tsp.toInt = s.cfg.memSize → stackPush v s = .error (.outOfRange s.tsp.toInt))

/-- Modes 4, 5 and 7 are no write targets (R117, R118, R120; decision D14). -/
def Obligations.InvalidTargetsRaise : Prop :=
  ∀ (s : State) (a : AddrField) (v : Word), ∀ m ∈ [Mode.indexed, .immediate, .stackPop],
    resolveWrite ⟨m, a⟩ v s = .error (.invalidWriteTarget ⟨m, a⟩)

/-- The resolver's writes are the contract of Safety.lean in every mode and every state (R123 is marked derived). -/
def Obligations.WritingMeetsItsContract : Prop :=
  ∀ (o : Operand) (v : Word) (s : State),
    (∀ c, writeFault o s = some c → resolveWrite o v s = .error c) ∧
    (writeFault o s = none → resolveWrite o v s = .ok (afterWrite o v s))

/-- A push then a pop returns the value and restores `TSP`; the slot keeps the word (R124, marked derived; the stack's
direction and bounds are decision D15). -/
def Obligations.PushThenPopRestores : Prop :=
  ∀ (s : State) (v : Word), s.Inv → s.tsp.toInt < s.cfg.memSize →
    ∃ t, stackPush v s = .ok t ∧ stackPop t = .ok (v, { s with mem := t.mem }) ∧ t.cell s.tsp.toInt = v ∧
      ∀ a : Nat, (a : Int) ≠ s.tsp.toInt → t.mem.read a = s.mem.read a

/-- The auto-increment and auto-decrement primitives (R121; decision D31): fetch at the register, then adjust it by one,
wrapping; the first condition leaves the register alone. -/
def Obligations.AutoAdjustFetchesThenSteps : Prop :=
  ∀ (s : State) (r : AddrField) (p v : Word), readReg r s = .ok p → memRead p.toInt s = .ok v →
    resolveAutoInc r s = .ok (v, s.setReg r (.word (p + 1))) ∧
    resolveAutoDec r s = .ok (v, s.setReg r (.word (p - 1)))

/-! ## Conditions -/

/-- Taking a fatal condition, and recording a non-fatal one (R200, R211; the record's form is decision D21): one record
with the instruction's address is appended; a fatal one also halts with reason `Fault`; nothing else changes. -/
def Obligations.TakingACondition : Prop :=
  ∀ (s : State) (c : Condition),
    s.raise c = { s with run := .halted .fault, conds := s.conds ++ [⟨c, (s.pc - 1).toInt⟩] } ∧
    s.report c = { s with conds := s.conds ++ [⟨c, (s.pc - 1).toInt⟩] } ∧
    (c.fatal = true ↔ c.code ∈ [3, 4, 5, 6, 7]) ∧ (c.fatal = false ↔ c.code ∈ [1, 2])

/-- The log only grows, by at most one non-fatal and then at most one fatal record, each with the instruction's address;
an instruction halts with reason `Fault` exactly when it appends a fatal one (R22, R200, R210; R210 is marked derived). -/
def Obligations.LogGrowsByAtMostTwoRecords : Prop :=
  ∀ (i : Instr) (s t : State), s.run = .running → exec i s = .next t →
    ∃ cs : List Condition, t.conds = s.conds ++ cs.map (fun c => ⟨c, s.instrAddr⟩) ∧
      (cs = [] ∨ (∃ c, cs = [c]) ∨ ∃ n f, cs = [n, f] ∧ n.fatal = false ∧ f.fatal = true) ∧
      (t.run = .halted .fault ↔ ∃ c ∈ cs, c.fatal = true)

/-- Before a fatal condition an instruction has written no register and no memory word, nor `CR` (R212; decision D24). -/
def Obligations.FaultingInstructionWritesNothing : Prop :=
  ∀ (i : Instr) (s t : State), s.run = .running → exec i s = .next t → t.run = .halted .fault →
    t.regs = s.regs ∧ t.mem = s.mem ∧ t.cr = s.cr ∧ t.pc = s.pc ∧ SameSpecials s t

/-! ## Arithmetic and the compare -/

/-- ADD (R132, on the handler R130; operand order is decision D18, wrapping with a record D6). -/
def Obligations.AddComputesTheSum : Prop :=
  HasOpcode .add 0x00 ∧ ArithmeticRuns .add (fun _ a b => a + b) fun _ _ => []

/-- SUB (R133, on R130; D18, D6). -/
def Obligations.SubComputesTheDifference : Prop :=
  HasOpcode .sub 0x01 ∧ ArithmeticRuns .sub (fun _ a b => a - b) fun _ _ => []

/-- MUL (R134, on R130; D18, D6). -/
def Obligations.MulComputesTheProduct : Prop :=
  HasOpcode .mul 0x02 ∧ ArithmeticRuns .mul (fun _ a b => a * b) fun _ _ => []

/-- DIV (R135, on R130): the quotient rounded as the parameter says (R138, decision D7); a zero divisor is recorded and
gives 0 (R202). -/
def Obligations.DivComputesTheQuotient : Prop :=
  HasOpcode .div 0x03 ∧
  ArithmeticRuns .div (fun s a b => if b = 0 then 0 else quotient s a b)
    fun o2 b => if b = 0 then [.divisionByZero o2] else []

/-- MOD (R136, on R130; decisions D7, D8): the remainder of the same quotient; a zero divisor is recorded and gives 0. -/
def Obligations.ModComputesTheRemainder : Prop :=
  HasOpcode .mod 0x04 ∧
  ArithmeticRuns .mod (fun s a b => if b = 0 then 0 else a - quotient s a b * b)
    fun o2 b => if b = 0 then [.divisionByZero o2] else []

/-- CMP (R137; decision D4): both reads, then `CR` is the sign of the exact difference; no operand is written. -/
def Obligations.CmpSetsTheSignOfTheDifference : Prop :=
  HasOpcode .cmp 0x05 ∧
  ∀ (o1 o2 : Operand) (s : State),
    let s1 := afterRead o1 s
    let s2 := afterRead o2 s1
    let a := (readValue o1 s).toInt
    let b := (readValue o2 s1).toInt
    (∀ c, readFault o1 s = some c → exec (.cmp o1 o2) s = .next (s.raise c)) ∧
    (readFault o1 s = none → ∀ c, readFault o2 s1 = some c → exec (.cmp o1 o2) s = .next (s1.raise c)) ∧
    (readFault o1 s = none → readFault o2 s1 = none → ∃ c : Comparison,
      exec (.cmp o1 o2) s = .next { s2 with cr := .holds c } ∧ c.value = if a < b then -1 else if a = b then 0 else 1)

/-- Without an `Overflow` record ADD, SUB and MUL are exact (R131; decision D6). -/
def Obligations.ExactUnlessOverflowIsRecorded : Prop :=
  ∀ (o1 o2 : Operand) (s t : State) (i : Operand → Operand → Instr) (op : Int → Int → Int),
    (i, op) ∈ [((.add : Operand → Operand → Instr), fun a b : Int => a + b), (.sub, fun a b => a - b), (.mul, fun a b => a * b)] →
    s.run = .running → exec (i o1 o2) s = .next t → t.run = .running → t.conds = s.conds →
    ∃ v : Word, v.toInt = op (readValue o1 s).toInt (readValue o2 (afterRead o1 s)).toInt ∧
      t = afterWrite o1 v (afterRead o2 (afterRead o1 s))

/-- Quotient and remainder (R136, R138; decision D7). -/
def Obligations.DivisionLaws : Prop :=
  ∀ a b : Int, b ≠ 0 →
    (∀ r, a = divResult r a b * b + modResult r a b ∧ |modResult r a b| < |b|) ∧
    divResult .trunc a b = a.sign * b.sign * (|a| / |b|) ∧
    (0 < b → divResult .floor a b * b ≤ a ∧ a < (divResult .floor a b + 1) * b) ∧
    (b < 0 → a ≤ divResult .floor a b * b ∧ (divResult .floor a b + 1) * b < a) ∧
    (modResult .trunc a b = 0 ∨ (modResult .trunc a b).sign = a.sign) ∧
    (modResult .floor a b = 0 ∨ (modResult .floor a b).sign = b.sign) ∧
    (b ∣ a ∨ a.sign = b.sign → divResult .trunc a b = divResult .floor a b)

/-- DIV records `Overflow` for -2^31 / -1 only; MOD never does (R135, R136; decisions D6, D7). -/
def Obligations.DivOverflowsOnlyAtTheMinimum : Prop :=
  ∀ (o1 o2 : Operand) (s t : State) (rs : List CondRecord),
    (exec (.mod o1 o2) s = .next t → t.conds = s.conds ++ rs → ∀ r ∈ rs, ∀ o, r.cond ≠ .overflow o) ∧
    (exec (.div o1 o2) s = .next t → t.conds = s.conds ++ rs → (∃ r ∈ rs, ∃ o, r.cond = .overflow o) →
      (readValue o1 s).toInt = -2147483648 ∧ (readValue o2 (afterRead o1 s)).toInt = -1)

/-! ## Data movement -/

/-- MOV (R150): operand 2 read, operand 1 written, the value unchanged; `MOV push, X` is `PUSH X`, `MOV X, pop` is
`POP X`, `MOV push, pop` changes nothing. -/
def Obligations.MovCopiesTheOperand : Prop :=
  HasOpcode .mov 0x08 ∧
  (∀ (o1 o2 : Operand) (s : State),
    let s1 := afterRead o2 s
    (∀ c, readFault o2 s = some c → exec (.mov o1 o2) s = .next (s.raise c)) ∧
    (readFault o2 s = none → ∀ c, writeFault o1 s1 = some c → exec (.mov o1 o2) s = .next (s1.raise c)) ∧
    (readFault o2 s = none → writeFault o1 s1 = none →
      exec (.mov o1 o2) s = .next (afterWrite o1 (readValue o2 s) s1))) ∧
  (∀ (a : AddrField) (o x : Operand) (s : State), exec (.mov ⟨.stackPush, a⟩ o) s = exec (.push o x) s) ∧
  (∀ (a : AddrField) (o x : Operand) (s : State), exec (.mov o ⟨.stackPop, a⟩) s = exec (.pop o x) s) ∧
  (∀ (a b : AddrField) (s : State), s.Inv → s.spr.toInt < s.tsp.toInt →
    exec (.mov ⟨.stackPush, a⟩ ⟨.stackPop, b⟩) s = .next s)

/-- PUSH (R151): the operand is read, then the slot at `TSP` is written and `TSP` advanced. -/
def Obligations.PushStoresTheOperand : Prop :=
  HasOpcode .push 0x09 ∧
  ∀ (o1 o2 : Operand) (s : State),
    let s1 := afterRead o1 s
    (∀ c, readFault o1 s = some c → exec (.push o1 o2) s = .next (s.raise c)) ∧
    (readFault o1 s = none → s1.tsp.toInt < 0 ∨ s1.cfg.memSize ≤ s1.tsp.toInt →
      exec (.push o1 o2) s = .next (s1.raise (.outOfRange s1.tsp.toInt))) ∧
    (readFault o1 s = none → 0 ≤ s1.tsp.toInt → s1.tsp.toInt < s1.cfg.memSize →
      exec (.push o1 o2) s =
        .next { s1 with mem := s1.mem.write s1.tsp.toInt.toNat (readValue o1 s), tsp := s1.tsp + 1 })

/-- POP (R152): underflow is checked, `TSP` retreats, the vacated slot's word is written to operand 1, which is resolved
after the pop. -/
def Obligations.PopWritesTheTop : Prop :=
  HasOpcode .pop 0x0A ∧
  ∀ (o1 o2 : Operand) (s : State),
    let s1 : State := { s with tsp := s.tsp - 1 }
    (s.tsp.toInt ≤ s.spr.toInt → exec (.pop o1 o2) s = .next (s.raise (.stackUnderflow s.tsp))) ∧
    (s.spr.toInt < s.tsp.toInt → s.tsp.toInt - 1 < 0 ∨ s.cfg.memSize ≤ s.tsp.toInt - 1 →
      exec (.pop o1 o2) s = .next (s.raise (.outOfRange (s.tsp.toInt - 1)))) ∧
    (s.spr.toInt < s.tsp.toInt → 0 ≤ s.tsp.toInt - 1 → s.tsp.toInt - 1 < s.cfg.memSize →
      (∀ c, writeFault o1 s1 = some c → exec (.pop o1 o2) s = .next (s1.raise c)) ∧
      (writeFault o1 s1 = none → exec (.pop o1 o2) s = .next (afterWrite o1 (s.cell (s.tsp.toInt - 1)) s1)))

/-! ## Control flow -/

/-- JMP (R160): the operand's value becomes `PC`, unchecked (decision D28). -/
def Obligations.JmpLoadsTheTarget : Prop :=
  HasOpcode .jmp 0x10 ∧
  ∀ (o1 o2 : Operand) (s : State),
    (∀ c, readFault o1 s = some c → exec (.jmp o1 o2) s = .next (s.raise c)) ∧
    (readFault o1 s = none → exec (.jmp o1 o2) s = .next { afterRead o1 s with pc := readValue o1 s })

/-- The six conditional jumps (R161 to R167; decisions D4, D22; the suffixes' meaning is general knowledge, G2): with no
comparison recorded the condition is raised; not taken, nothing at all changes; taken, they jump as JMP does. -/
def Obligations.ConditionalJumpsFollowTheComparison : Prop :=
  HasOpcode .jeq 0x11 ∧ HasOpcode .jne 0x12 ∧ HasOpcode .jlt 0x13 ∧ HasOpcode .jle 0x14 ∧ HasOpcode .jgt 0x15 ∧
  HasOpcode .jge 0x16 ∧
  ∀ (i : Instr) (s : State), i.isConditionalJump = true →
    (s.cr = .undef → exec i s = .next (s.raise (.undefinedRegister .cr))) ∧
    (s.cr ≠ .undef → takesJump i s = false → exec i s = .next s) ∧
    (takesJump i s = true → ∀ c, readFault i.op1 s = some c → exec i s = .next (s.raise c)) ∧
    (takesJump i s = true → readFault i.op1 s = none →
      exec i s = .next { afterRead i.op1 s with pc := readValue i.op1 s })

/-! ## Program control -/

/-- EOP (R175): the block halts with reason `EOP` and nothing else changes, whatever the operand fields, `PC` one past the
EOP and `IR` holding it; with a non-zero reserved field the word is a decode failure. -/
def Obligations.EopHaltsTheBlock : Prop :=
  HasOpcode .eop 0x18 ∧ encode (.eop .missing .missing) = 0xC0000000 ∧
  (∀ (o1 o2 : Operand) (s : State), exec (.eop o1 o2) s = .next { s with run := .halted .eop }) ∧
  (∀ (o1 o2 : Operand) (s : State), s.cfg.wf = true → s.run = .running → InWindow s →
    decode (s.cell s.pc.toInt) = .ok (.eop o1 o2) → step s = .next { executing s with run := .halted .eop }) ∧
  (∀ w : Word, w.toNat / 2 ^ 27 = 0x18 → w.toNat % 32 ≠ 0 → ∃ e, decode w = .error e)

/-- FUNC (R176; that its halt reason is EOP's is decision D27). -/
def Obligations.FuncHaltsTheBlock : Prop :=
  HasOpcode .func 0x19 ∧ encode (.func .missing .missing) = 0xC8000000 ∧
  (∀ (o1 o2 : Operand) (s : State), exec (.func o1 o2) s = .next { s with run := .halted .eop }) ∧
  (∀ (o1 o2 : Operand) (s : State), s.cfg.wf = true → s.run = .running → InWindow s →
    decode (s.cell s.pc.toInt) = .ok (.func o1 o2) → step s = .next { executing s with run := .halted .eop }) ∧
  (∀ w : Word, w.toNat / 2 ^ 27 = 0x19 → w.toNat % 32 ≠ 0 → ∃ e, decode w = .error e)

/-! ## Frames -/

/-- Frame of ADD, SUB, MUL, DIV, MOD: all registers but operand 1's in mode 0, all of memory but the word the write
target names, `PC`, `CR` and the other special registers, and `TSP` unless an operand is in a stack mode. -/
def Obligations.ArithmeticFrame : Prop :=
  ∀ (i : Operand → Operand → Instr) (o1 o2 : Operand) (s t : State), i ∈ [Instr.add, .sub, .mul, .div, .mod] →
    exec (i o1 o2) s = .next t →
    SameSpecials s t ∧ LogGrows s t ∧ t.pc = s.pc ∧ t.cr = s.cr ∧
    (∀ r, ¬ (o1.mode = .registerDirect ∧ o1.addr = r) → t.reg r = s.reg r) ∧
    (o1.mode.isStack = false → o2.mode.isStack = false → t.tsp = s.tsp) ∧
    (∀ a : Nat, (∀ v1 s1 v2 s2 g, resolveRead o1 s = .ok (v1, s1) → resolveRead o2 s1 = .ok (v2, s2) →
      writeTarget o1 s2 = .ok g → g.address s2 ≠ some (a : Int)) → t.mem.read a = s.mem.read a)

/-- Frame of MOV. -/
def Obligations.MovFrame : Prop :=
  ∀ (o1 o2 : Operand) (s t : State), exec (.mov o1 o2) s = .next t →
    SameSpecials s t ∧ LogGrows s t ∧ t.pc = s.pc ∧ t.cr = s.cr ∧
    (∀ r, ¬ (o1.mode = .registerDirect ∧ o1.addr = r) → t.reg r = s.reg r) ∧
    (o1.mode.isStack = false → o2.mode.isStack = false → t.tsp = s.tsp) ∧
    (∀ a : Nat, (∀ v s1 g, resolveRead o2 s = .ok (v, s1) → writeTarget o1 s1 = .ok g →
      g.address s1 ≠ some (a : Int)) → t.mem.read a = s.mem.read a)

/-- Frame of POP: `TSP` is left by a pop that raises, is one less after a pop that succeeds, and is back where it was
when the write allocates a slot in mode 6 (R104, R119, R152; decision D15). -/
def Obligations.PopFrame : Prop :=
  ∀ (o1 o2 : Operand) (s t : State), exec (.pop o1 o2) s = .next t →
    SameSpecials s t ∧ LogGrows s t ∧ t.pc = s.pc ∧ t.cr = s.cr ∧
    (∀ r, ¬ (o1.mode = .registerDirect ∧ o1.addr = r) → t.reg r = s.reg r) ∧
    (s.tsp.toInt ≤ s.spr.toInt → t.tsp = s.tsp) ∧
    (s.tsp.toInt - 1 < 0 ∨ s.cfg.memSize ≤ s.tsp.toInt - 1 → t.tsp = s.tsp) ∧
    (s.spr.toInt < s.tsp.toInt → 0 ≤ s.tsp.toInt - 1 → s.tsp.toInt - 1 < s.cfg.memSize →
      (o1.mode = .stackPush → t.tsp = s.tsp) ∧ (o1.mode ≠ .stackPush → t.tsp = s.tsp - 1)) ∧
    (∀ a : Nat, (∀ v s1 g, stackPop s = .ok (v, s1) → writeTarget o1 s1 = .ok g →
      g.address s1 ≠ some (a : Int)) → t.mem.read a = s.mem.read a)

/-- Frame of PUSH: no register; of memory the slot at `TSP` after the operand's read alone. -/
def Obligations.PushFrame : Prop :=
  ∀ (o1 o2 : Operand) (s t : State), exec (.push o1 o2) s = .next t →
    SameSpecials s t ∧ LogGrows s t ∧ t.pc = s.pc ∧ t.cr = s.cr ∧ (∀ r, t.reg r = s.reg r) ∧
    (o1.mode.isStack = false → t.tsp = s.tsp ∨ t.tsp = s.tsp + 1) ∧
    (∀ a : Nat, (∀ v s1, resolveRead o1 s = .ok (v, s1) → s1.tsp.toInt ≠ (a : Int)) → t.mem.read a = s.mem.read a)

/-- Frame of CMP: no register, no memory word, `PC`; `CR` and, through stack operands, `TSP` may change. -/
def Obligations.CmpFrame : Prop :=
  ∀ (o1 o2 : Operand) (s t : State), exec (.cmp o1 o2) s = .next t →
    SameSpecials s t ∧ LogGrows s t ∧ t.pc = s.pc ∧ (∀ r, t.reg r = s.reg r) ∧ (∀ a, t.mem.read a = s.mem.read a) ∧
    (o1.mode.isStack = false → o2.mode.isStack = false → t.tsp = s.tsp)

/-- Frame of the seven jumps: nothing but `PC` and, through a stack operand, `TSP`. -/
def Obligations.JumpFrame : Prop :=
  ∀ (i : Instr) (s t : State), i.isJump = true → exec i s = .next t →
    SameSpecials s t ∧ LogGrows s t ∧ t.cr = s.cr ∧ (∀ r, t.reg r = s.reg r) ∧ (∀ a, t.mem.read a = s.mem.read a) ∧
    (i.op1.mode.isStack = false → t.tsp = s.tsp)

/-! ## Whole-machine rules -/

/-- No instruction writes `SPR`, `I1`, `I2`, `BR` or the parameters, and none but the fetch writes `IR`; only CMP writes
`CR`; only jumps write `PC`; only the instructions that write operand 1, and PUSH, write registers or memory (R11, R14,
R16, R122, R153; decisions D4, D10, D19). -/
def Obligations.OnlyTheNamedInstructionsWrite : Prop :=
  ∀ (i : Instr) (s t : State), exec i s = .next t →
    SameSpecials s t ∧
    ((∀ o1 o2, i ≠ .cmp o1 o2) → t.cr = s.cr) ∧
    (i.isJump = false → t.pc = s.pc) ∧
    (i.writesOp1 = false → t.regs = s.regs) ∧
    (i.writesOp1 = false → (∀ o1 o2, i ≠ .push o1 o2) → t.mem = s.mem)

/-- No step makes a defined register, `CR` or `IR` undefined (R12; decision D10). -/
def Obligations.DefinedRegistersStayDefined : Prop :=
  ∀ s t : State, step s = .next t →
    (∀ r, s.reg r ≠ .undef → t.reg r ≠ .undef) ∧ (s.cr ≠ .undef → t.cr ≠ .undef) ∧ (s.ir ≠ .undef → t.ir ≠ .undef)

/-- `IR`, `BR` and `I2` influence nothing: two blocks that differ in them alone run in step and differ in them alone
(R17, R19; decision D19). -/
def Obligations.InertRegistersInfluenceNothing : Prop :=
  (∀ (i : Instr) (s t : State) (ir br i2 : Reg), exec i s = .next t →
    exec i (s.withInert ir br i2) = .next (t.withInert ir br i2)) ∧
  (∀ (s t : State) (ir br i2 : Reg), step s = .next t →
    ∃ ir', step (s.withInert ir br i2) = .next (t.withInert ir' br i2))

/-- The condition log influences nothing: no instruction reads it (R22; decision D21). -/
def Obligations.LogInfluencesNothing : Prop :=
  ∀ (s t : State) (rs : List CondRecord), step s = .next t →
    step { s with conds := rs ++ s.conds } = .next { t with conds := rs ++ t.conds }

/-- Operand fields an instruction does not use have no effect (R67; decision D17). -/
def Obligations.UnusedOperandsHaveNoEffect : Prop :=
  ∀ (o1 o2 p1 p2 : Operand) (s : State),
    (∀ i ∈ [Instr.push, .pop, .jmp, .jeq, .jne, .jlt, .jle, .jgt, .jge], exec (i o1 o2) s = exec (i o1 p2) s) ∧
    (∀ i ∈ [Instr.eop, .func], exec (i o1 o2) s = exec (i p1 p2) s)

/-! ## The assembler (software beside the block, R3(a)) -/

/-- If a program assembles it has no empty entry, every emitted word is an executable instruction with its unused operands
zero, and the program fits the window (R67, R181, R187, R189; decision D26). -/
def Obligations.AssembledWordsAreExecutable : Prop :=
  ∀ (c : Config) (lines : List (List Token)) (ws : List Word) (warnings : List Token),
    assemble c lines = .ok (ws, warnings) →
    [] ∉ lines ∧ ws.length ≤ c.iwinSize ∧ ∀ w ∈ ws, w ≠ 0 ∧ ∃ i : Instr, decode w = .ok i ∧ i.canonical = true

/-- A three-operand conditional jump is two lines, a `DEF` none (R183, R184; the comparison's mnemonic is decision D4). That a
`DEF` is asked for a token which R182 classifies as a name, and that its declaration stands in front of a table that may
bind the name already, is the model's choice (notes/assumptions/19.md, DESIGN CHOICE). -/
def Obligations.PseudoInstructionsExpand : Prop :=
  (∀ (m a b target : Token) (vt : VarTable), isConditionalJump m = true →
    preEncode [[m, a, b, target]] vt = .ok ([[['C', 'M', 'P'], a, b], [m, target]], vt)) ∧
  (∀ (name value : Token) (n : AddrField) (vt : VarTable), isName name = true → parseField value = .ok n →
    preEncode [[['D', 'E', 'F'], name, value]] vt = .ok ([], (name, n) :: vt))
end

