-- ==== Sys2Proof/Laws/Decode.lean ====
section
/-! SUPPORT. The numbers inside a word: what each field of R62 is of the word's value, and the bounds of the opcode
map and the mode tags. A round-trip proof is these lemmas and linear arithmetic. -/

namespace Sys2Proof

theorem catField_toNat (w : Word) : (catField w).toNat = w.toNat / 1073741824 % 4 := by
  simp [catField, Nat.shiftRight_eq_div_pow]

theorem idxField_toNat (w : Word) : (idxField w).toNat = w.toNat / 134217728 % 8 := by
  simp [idxField, Nat.shiftRight_eq_div_pow]

theorem mode1Field_toNat (w : Word) : (mode1Field w).toNat = w.toNat / 16777216 % 8 := by
  simp [mode1Field, Nat.shiftRight_eq_div_pow]

theorem addr1Field_toNat (w : Word) : (addr1Field w).toNat = w.toNat / 65536 % 256 := by
  simp [addr1Field, Nat.shiftRight_eq_div_pow]

theorem mode2Field_toNat (w : Word) : (mode2Field w).toNat = w.toNat / 8192 % 8 := by
  simp [mode2Field, Nat.shiftRight_eq_div_pow]

theorem addr2Field_toNat (w : Word) : (addr2Field w).toNat = w.toNat / 32 % 256 := by
  simp [addr2Field, Nat.shiftRight_eq_div_pow]

theorem rsvdField_toNat (w : Word) : (rsvdField w).toNat = w.toNat % 32 := by
  simp [rsvdField]

theorem Instr.opcode_lt (i : Instr) : i.opcode < 32 := by
  cases i <;> simp [Instr.opcode]

@[simp] theorem modeOfTag_modeTag (m : Mode) : modeOfTag (modeTag m) = m := by
  cases m <;> rfl

@[simp] theorem modeTag_modeOfTag (t : BitVec 3) : modeTag (modeOfTag t) = t := by
  revert t
  decide

/-- The value of a built word: no field overlaps another. -/
theorem encodeFields_toNat {op m1 a1 m2 a2 : Nat} (h0 : op < 32) (h1 : m1 < 8) (h2 : a1 < 256) (h3 : m2 < 8)
    (h4 : a2 < 256) :
    (encodeFields op m1 a1 m2 a2).toNat = op * 134217728 + m1 * 16777216 + a1 * 65536 + m2 * 8192 + a2 * 32 := by
  simp only [encodeFields, BitVec.toNat_ofNat]
  omega

/-- The value of an instruction's word, in the numerals linear arithmetic wants. -/
theorem encode_toNat (i : Instr) :
    (encode i).toNat = i.opcode * 134217728 + (modeTag i.op1.mode).toNat * 16777216 + i.op1.addr.toNat * 65536 +
      (modeTag i.op2.mode).toNat * 8192 + i.op2.addr.toNat * 32 := by
  unfold encode
  exact encodeFields_toNat i.opcode_lt (modeTag i.op1.mode).isLt i.op1.addr.isLt (modeTag i.op2.mode).isLt
    i.op2.addr.isLt

/-- The table's row for an instruction's own opcode. -/
theorem opcodeTable_opcode (i : Instr) (cat : BitVec 2) (idx : BitVec 3) (h : cat.toNat * 8 + idx.toNat = i.opcode) :
    ∃ mk, opcodeTable cat idx = some mk ∧ mk i.op1 i.op2 = i := by
  have hc : cat.toNat = i.opcode / 8 := by have := idx.isLt; omega
  have hi : idx.toNat = i.opcode % 8 := by have := idx.isLt; omega
  unfold opcodeTable
  rw [hc, hi]
  cases i <;> simp [Instr.opcode, Instr.op1, Instr.op2]

/-- A row found in the table builds instructions of its own opcode, with its own operands. -/
theorem opcodeTable_some {cat : BitVec 2} {idx : BitVec 3} {mk : Operand → Operand → Instr}
    (h : opcodeTable cat idx = some mk) (o1 o2 : Operand) :
    (mk o1 o2).opcode = cat.toNat * 8 + idx.toNat ∧ (mk o1 o2).op1 = o1 ∧ (mk o1 o2).op2 = o2 := by
  unfold opcodeTable at h
  split at h <;> first | (simp at h; done) | (simp only [Option.some.injEq] at h; subst h; rename_i hc hi; rw [hc, hi]; exact ⟨rfl, rfl, rfl⟩)

/-! ## What the decoder answers, for a word that stays a variable

Cite these for `decode (encode i)`: unfolding `decode` there makes the kernel evaluate the built word. -/

theorem decode_of_row {w : Word} {mk : Operand → Operand → Instr}
    (h : opcodeTable (catField w) (idxField w) = some mk) (hr : rsvdField w = 0) :
    decode w = .ok (mk (operand1 w) (operand2 w)) := by
  unfold decode
  rw [h]
  simp [hr]

theorem decode_ok_iff {w : Word} {i : Instr} :
    decode w = .ok i ↔ ∃ mk, opcodeTable (catField w) (idxField w) = some mk ∧ rsvdField w = 0 ∧
      mk (operand1 w) (operand2 w) = i := by
  unfold decode
  split
  · simp [*]
  · split <;> simp_all

theorem decode_error_iff {w : Word} :
    (∃ e, decode w = .error e) ↔ opcodeTable (catField w) (idxField w) = none ∨ rsvdField w ≠ 0 := by
  unfold decode
  split
  · simp [*]
  · split <;> simp_all

end Sys2Proof
end

