-- ==== Sys2Proof/Laws/State.lean ====
section
/-! SUPPORT. One lemma per field per update of State, each by rfl, so that no proof unfolds a record update; and
the registers' read after write. -/

namespace Sys2Proof

/-- The constraints of spec/00_scope.md R7 as inequalities. -/
theorem Config.wf_iff {c : Config} : c.wf = true ↔
    1 ≤ c.memSize ∧ c.memSize ≤ 2147483647 ∧ 1 ≤ c.iwinSize ∧ c.pcOrigin + c.iwinSize ≤ c.memSize ∧
      c.stackBase ≤ c.memSize ∧ 1 ≤ c.nregs ∧ c.nregs ≤ 256 := by
  unfold Config.wf Config.iwinEnd
  simp only [Bool.and_eq_true, decide_eq_true_eq]
  omega

end Sys2Proof

namespace Sys2Proof.Machine

/-! ## setReg -/

@[simp] theorem State.setReg_cfg (s : State) (i : AddrField) (r : Reg) : (s.setReg i r).cfg = s.cfg := rfl
@[simp] theorem State.setReg_pc (s : State) (i : AddrField) (r : Reg) : (s.setReg i r).pc = s.pc := rfl
@[simp] theorem State.setReg_ir (s : State) (i : AddrField) (r : Reg) : (s.setReg i r).ir = s.ir := rfl
@[simp] theorem State.setReg_br (s : State) (i : AddrField) (r : Reg) : (s.setReg i r).br = s.br := rfl
@[simp] theorem State.setReg_spr (s : State) (i : AddrField) (r : Reg) : (s.setReg i r).spr = s.spr := rfl
@[simp] theorem State.setReg_tsp (s : State) (i : AddrField) (r : Reg) : (s.setReg i r).tsp = s.tsp := rfl
@[simp] theorem State.setReg_i1 (s : State) (i : AddrField) (r : Reg) : (s.setReg i r).i1 = s.i1 := rfl
@[simp] theorem State.setReg_i2 (s : State) (i : AddrField) (r : Reg) : (s.setReg i r).i2 = s.i2 := rfl
@[simp] theorem State.setReg_cr (s : State) (i : AddrField) (r : Reg) : (s.setReg i r).cr = s.cr := rfl
@[simp] theorem State.setReg_mem (s : State) (i : AddrField) (r : Reg) : (s.setReg i r).mem = s.mem := rfl
@[simp] theorem State.setReg_run (s : State) (i : AddrField) (r : Reg) : (s.setReg i r).run = s.run := rfl
@[simp] theorem State.setReg_conds (s : State) (i : AddrField) (r : Reg) : (s.setReg i r).conds = s.conds := rfl

/-! ## setPc -/

@[simp] theorem State.setPc_cfg (s : State) (v : Word) : (s.setPc v).cfg = s.cfg := rfl
@[simp] theorem State.setPc_regs (s : State) (v : Word) : (s.setPc v).regs = s.regs := rfl
@[simp] theorem State.setPc_pc (s : State) (v : Word) : (s.setPc v).pc = v := rfl
@[simp] theorem State.setPc_ir (s : State) (v : Word) : (s.setPc v).ir = s.ir := rfl
@[simp] theorem State.setPc_br (s : State) (v : Word) : (s.setPc v).br = s.br := rfl
@[simp] theorem State.setPc_spr (s : State) (v : Word) : (s.setPc v).spr = s.spr := rfl
@[simp] theorem State.setPc_tsp (s : State) (v : Word) : (s.setPc v).tsp = s.tsp := rfl
@[simp] theorem State.setPc_i1 (s : State) (v : Word) : (s.setPc v).i1 = s.i1 := rfl
@[simp] theorem State.setPc_i2 (s : State) (v : Word) : (s.setPc v).i2 = s.i2 := rfl
@[simp] theorem State.setPc_cr (s : State) (v : Word) : (s.setPc v).cr = s.cr := rfl
@[simp] theorem State.setPc_mem (s : State) (v : Word) : (s.setPc v).mem = s.mem := rfl
@[simp] theorem State.setPc_run (s : State) (v : Word) : (s.setPc v).run = s.run := rfl
@[simp] theorem State.setPc_conds (s : State) (v : Word) : (s.setPc v).conds = s.conds := rfl
@[simp] theorem State.setPc_reg (s : State) (v : Word) (j : AddrField) : (s.setPc v).reg j = s.reg j := rfl

/-! ## setIr -/

@[simp] theorem State.setIr_cfg (s : State) (r : Reg) : (s.setIr r).cfg = s.cfg := rfl
@[simp] theorem State.setIr_regs (s : State) (r : Reg) : (s.setIr r).regs = s.regs := rfl
@[simp] theorem State.setIr_pc (s : State) (r : Reg) : (s.setIr r).pc = s.pc := rfl
@[simp] theorem State.setIr_ir (s : State) (r : Reg) : (s.setIr r).ir = r := rfl
@[simp] theorem State.setIr_br (s : State) (r : Reg) : (s.setIr r).br = s.br := rfl
@[simp] theorem State.setIr_spr (s : State) (r : Reg) : (s.setIr r).spr = s.spr := rfl
@[simp] theorem State.setIr_tsp (s : State) (r : Reg) : (s.setIr r).tsp = s.tsp := rfl
@[simp] theorem State.setIr_i1 (s : State) (r : Reg) : (s.setIr r).i1 = s.i1 := rfl
@[simp] theorem State.setIr_i2 (s : State) (r : Reg) : (s.setIr r).i2 = s.i2 := rfl
@[simp] theorem State.setIr_cr (s : State) (r : Reg) : (s.setIr r).cr = s.cr := rfl
@[simp] theorem State.setIr_mem (s : State) (r : Reg) : (s.setIr r).mem = s.mem := rfl
@[simp] theorem State.setIr_run (s : State) (r : Reg) : (s.setIr r).run = s.run := rfl
@[simp] theorem State.setIr_conds (s : State) (r : Reg) : (s.setIr r).conds = s.conds := rfl
@[simp] theorem State.setIr_reg (s : State) (r : Reg) (j : AddrField) : (s.setIr r).reg j = s.reg j := rfl

/-! ## setTsp -/

@[simp] theorem State.setTsp_cfg (s : State) (v : Word) : (s.setTsp v).cfg = s.cfg := rfl
@[simp] theorem State.setTsp_regs (s : State) (v : Word) : (s.setTsp v).regs = s.regs := rfl
@[simp] theorem State.setTsp_pc (s : State) (v : Word) : (s.setTsp v).pc = s.pc := rfl
@[simp] theorem State.setTsp_ir (s : State) (v : Word) : (s.setTsp v).ir = s.ir := rfl
@[simp] theorem State.setTsp_br (s : State) (v : Word) : (s.setTsp v).br = s.br := rfl
@[simp] theorem State.setTsp_spr (s : State) (v : Word) : (s.setTsp v).spr = s.spr := rfl
@[simp] theorem State.setTsp_tsp (s : State) (v : Word) : (s.setTsp v).tsp = v := rfl
@[simp] theorem State.setTsp_i1 (s : State) (v : Word) : (s.setTsp v).i1 = s.i1 := rfl
@[simp] theorem State.setTsp_i2 (s : State) (v : Word) : (s.setTsp v).i2 = s.i2 := rfl
@[simp] theorem State.setTsp_cr (s : State) (v : Word) : (s.setTsp v).cr = s.cr := rfl
@[simp] theorem State.setTsp_mem (s : State) (v : Word) : (s.setTsp v).mem = s.mem := rfl
@[simp] theorem State.setTsp_run (s : State) (v : Word) : (s.setTsp v).run = s.run := rfl
@[simp] theorem State.setTsp_conds (s : State) (v : Word) : (s.setTsp v).conds = s.conds := rfl
@[simp] theorem State.setTsp_reg (s : State) (v : Word) (j : AddrField) : (s.setTsp v).reg j = s.reg j := rfl

/-! ## setCr -/

@[simp] theorem State.setCr_cfg (s : State) (r : CompareReg) : (s.setCr r).cfg = s.cfg := rfl
@[simp] theorem State.setCr_regs (s : State) (r : CompareReg) : (s.setCr r).regs = s.regs := rfl
@[simp] theorem State.setCr_pc (s : State) (r : CompareReg) : (s.setCr r).pc = s.pc := rfl
@[simp] theorem State.setCr_ir (s : State) (r : CompareReg) : (s.setCr r).ir = s.ir := rfl
@[simp] theorem State.setCr_br (s : State) (r : CompareReg) : (s.setCr r).br = s.br := rfl
@[simp] theorem State.setCr_spr (s : State) (r : CompareReg) : (s.setCr r).spr = s.spr := rfl
@[simp] theorem State.setCr_tsp (s : State) (r : CompareReg) : (s.setCr r).tsp = s.tsp := rfl
@[simp] theorem State.setCr_i1 (s : State) (r : CompareReg) : (s.setCr r).i1 = s.i1 := rfl
@[simp] theorem State.setCr_i2 (s : State) (r : CompareReg) : (s.setCr r).i2 = s.i2 := rfl
@[simp] theorem State.setCr_cr (s : State) (r : CompareReg) : (s.setCr r).cr = r := rfl
@[simp] theorem State.setCr_mem (s : State) (r : CompareReg) : (s.setCr r).mem = s.mem := rfl
@[simp] theorem State.setCr_run (s : State) (r : CompareReg) : (s.setCr r).run = s.run := rfl
@[simp] theorem State.setCr_conds (s : State) (r : CompareReg) : (s.setCr r).conds = s.conds := rfl
@[simp] theorem State.setCr_reg (s : State) (r : CompareReg) (j : AddrField) : (s.setCr r).reg j = s.reg j := rfl

/-! ## setMem -/

@[simp] theorem State.setMem_cfg (s : State) (m : Memory) : (s.setMem m).cfg = s.cfg := rfl
@[simp] theorem State.setMem_regs (s : State) (m : Memory) : (s.setMem m).regs = s.regs := rfl
@[simp] theorem State.setMem_pc (s : State) (m : Memory) : (s.setMem m).pc = s.pc := rfl
@[simp] theorem State.setMem_ir (s : State) (m : Memory) : (s.setMem m).ir = s.ir := rfl
@[simp] theorem State.setMem_br (s : State) (m : Memory) : (s.setMem m).br = s.br := rfl
@[simp] theorem State.setMem_spr (s : State) (m : Memory) : (s.setMem m).spr = s.spr := rfl
@[simp] theorem State.setMem_tsp (s : State) (m : Memory) : (s.setMem m).tsp = s.tsp := rfl
@[simp] theorem State.setMem_i1 (s : State) (m : Memory) : (s.setMem m).i1 = s.i1 := rfl
@[simp] theorem State.setMem_i2 (s : State) (m : Memory) : (s.setMem m).i2 = s.i2 := rfl
@[simp] theorem State.setMem_cr (s : State) (m : Memory) : (s.setMem m).cr = s.cr := rfl
@[simp] theorem State.setMem_mem (s : State) (m : Memory) : (s.setMem m).mem = m := rfl
@[simp] theorem State.setMem_run (s : State) (m : Memory) : (s.setMem m).run = s.run := rfl
@[simp] theorem State.setMem_conds (s : State) (m : Memory) : (s.setMem m).conds = s.conds := rfl
@[simp] theorem State.setMem_reg (s : State) (m : Memory) (j : AddrField) : (s.setMem m).reg j = s.reg j := rfl

/-! ## setRun -/

@[simp] theorem State.setRun_cfg (s : State) (r : RunState) : (s.setRun r).cfg = s.cfg := rfl
@[simp] theorem State.setRun_regs (s : State) (r : RunState) : (s.setRun r).regs = s.regs := rfl
@[simp] theorem State.setRun_pc (s : State) (r : RunState) : (s.setRun r).pc = s.pc := rfl
@[simp] theorem State.setRun_ir (s : State) (r : RunState) : (s.setRun r).ir = s.ir := rfl
@[simp] theorem State.setRun_br (s : State) (r : RunState) : (s.setRun r).br = s.br := rfl
@[simp] theorem State.setRun_spr (s : State) (r : RunState) : (s.setRun r).spr = s.spr := rfl
@[simp] theorem State.setRun_tsp (s : State) (r : RunState) : (s.setRun r).tsp = s.tsp := rfl
@[simp] theorem State.setRun_i1 (s : State) (r : RunState) : (s.setRun r).i1 = s.i1 := rfl
@[simp] theorem State.setRun_i2 (s : State) (r : RunState) : (s.setRun r).i2 = s.i2 := rfl
@[simp] theorem State.setRun_cr (s : State) (r : RunState) : (s.setRun r).cr = s.cr := rfl
@[simp] theorem State.setRun_mem (s : State) (r : RunState) : (s.setRun r).mem = s.mem := rfl
@[simp] theorem State.setRun_run (s : State) (r : RunState) : (s.setRun r).run = r := rfl
@[simp] theorem State.setRun_conds (s : State) (r : RunState) : (s.setRun r).conds = s.conds := rfl
@[simp] theorem State.setRun_reg (s : State) (r : RunState) (j : AddrField) : (s.setRun r).reg j = s.reg j := rfl

/-! ## addRecord -/

@[simp] theorem State.addRecord_cfg (s : State) (r : CondRecord) : (s.addRecord r).cfg = s.cfg := rfl
@[simp] theorem State.addRecord_regs (s : State) (r : CondRecord) : (s.addRecord r).regs = s.regs := rfl
@[simp] theorem State.addRecord_pc (s : State) (r : CondRecord) : (s.addRecord r).pc = s.pc := rfl
@[simp] theorem State.addRecord_ir (s : State) (r : CondRecord) : (s.addRecord r).ir = s.ir := rfl
@[simp] theorem State.addRecord_br (s : State) (r : CondRecord) : (s.addRecord r).br = s.br := rfl
@[simp] theorem State.addRecord_spr (s : State) (r : CondRecord) : (s.addRecord r).spr = s.spr := rfl
@[simp] theorem State.addRecord_tsp (s : State) (r : CondRecord) : (s.addRecord r).tsp = s.tsp := rfl
@[simp] theorem State.addRecord_i1 (s : State) (r : CondRecord) : (s.addRecord r).i1 = s.i1 := rfl
@[simp] theorem State.addRecord_i2 (s : State) (r : CondRecord) : (s.addRecord r).i2 = s.i2 := rfl
@[simp] theorem State.addRecord_cr (s : State) (r : CondRecord) : (s.addRecord r).cr = s.cr := rfl
@[simp] theorem State.addRecord_mem (s : State) (r : CondRecord) : (s.addRecord r).mem = s.mem := rfl
@[simp] theorem State.addRecord_run (s : State) (r : CondRecord) : (s.addRecord r).run = s.run := rfl
@[simp] theorem State.addRecord_conds (s : State) (r : CondRecord) : (s.addRecord r).conds = s.conds ++ [r] := rfl
@[simp] theorem State.addRecord_reg (s : State) (r : CondRecord) (j : AddrField) : (s.addRecord r).reg j = s.reg j := rfl

/-! ## Registers -/

theorem State.setReg_reg (s : State) (i j : AddrField) (r : Reg) :
    (s.setReg i r).reg j = if i = j then r else s.reg j := by
  unfold State.reg State.setReg
  rw [Vector.getElem_set]
  simp [BitVec.toNat_inj]

@[simp] theorem State.setReg_reg_same (s : State) (i : AddrField) (r : Reg) : (s.setReg i r).reg i = r := by
  simp [State.setReg_reg]

theorem State.setReg_reg_other (s : State) {i j : AddrField} (r : Reg) (h : i ≠ j) :
    (s.setReg i r).reg j = s.reg j := by
  simp [State.setReg_reg, h]

/-! ## Updates that change nothing -/

@[simp] theorem State.setTsp_self (s : State) : s.setTsp s.tsp = s := rfl
@[simp] theorem State.setMem_self (s : State) : s.setMem s.mem = s := rfl
@[simp] theorem State.setPc_self (s : State) : s.setPc s.pc = s := rfl
@[simp] theorem State.setCr_self (s : State) : s.setCr s.cr = s := rfl

/-! ## Records -/

@[simp] theorem State.report_cfg (s : State) (c : Condition) : (s.report c).cfg = s.cfg := rfl
@[simp] theorem State.report_regs (s : State) (c : Condition) : (s.report c).regs = s.regs := rfl
@[simp] theorem State.report_pc (s : State) (c : Condition) : (s.report c).pc = s.pc := rfl
@[simp] theorem State.report_ir (s : State) (c : Condition) : (s.report c).ir = s.ir := rfl
@[simp] theorem State.report_br (s : State) (c : Condition) : (s.report c).br = s.br := rfl
@[simp] theorem State.report_spr (s : State) (c : Condition) : (s.report c).spr = s.spr := rfl
@[simp] theorem State.report_tsp (s : State) (c : Condition) : (s.report c).tsp = s.tsp := rfl
@[simp] theorem State.report_i1 (s : State) (c : Condition) : (s.report c).i1 = s.i1 := rfl
@[simp] theorem State.report_i2 (s : State) (c : Condition) : (s.report c).i2 = s.i2 := rfl
@[simp] theorem State.report_cr (s : State) (c : Condition) : (s.report c).cr = s.cr := rfl
@[simp] theorem State.report_mem (s : State) (c : Condition) : (s.report c).mem = s.mem := rfl
@[simp] theorem State.report_run (s : State) (c : Condition) : (s.report c).run = s.run := rfl
@[simp] theorem State.report_conds (s : State) (c : Condition) : (s.report c).conds = s.conds ++ [⟨c, s.instrAddr⟩] := rfl
@[simp] theorem State.report_reg (s : State) (c : Condition) (j : AddrField) : (s.report c).reg j = s.reg j := rfl

@[simp] theorem State.raiseAt_cfg (s : State) (a : Int) (c : Condition) : (s.raiseAt a c).cfg = s.cfg := rfl
@[simp] theorem State.raiseAt_regs (s : State) (a : Int) (c : Condition) : (s.raiseAt a c).regs = s.regs := rfl
@[simp] theorem State.raiseAt_pc (s : State) (a : Int) (c : Condition) : (s.raiseAt a c).pc = s.pc := rfl
@[simp] theorem State.raiseAt_ir (s : State) (a : Int) (c : Condition) : (s.raiseAt a c).ir = s.ir := rfl
@[simp] theorem State.raiseAt_br (s : State) (a : Int) (c : Condition) : (s.raiseAt a c).br = s.br := rfl
@[simp] theorem State.raiseAt_spr (s : State) (a : Int) (c : Condition) : (s.raiseAt a c).spr = s.spr := rfl
@[simp] theorem State.raiseAt_tsp (s : State) (a : Int) (c : Condition) : (s.raiseAt a c).tsp = s.tsp := rfl
@[simp] theorem State.raiseAt_i1 (s : State) (a : Int) (c : Condition) : (s.raiseAt a c).i1 = s.i1 := rfl
@[simp] theorem State.raiseAt_i2 (s : State) (a : Int) (c : Condition) : (s.raiseAt a c).i2 = s.i2 := rfl
@[simp] theorem State.raiseAt_cr (s : State) (a : Int) (c : Condition) : (s.raiseAt a c).cr = s.cr := rfl
@[simp] theorem State.raiseAt_mem (s : State) (a : Int) (c : Condition) : (s.raiseAt a c).mem = s.mem := rfl
@[simp] theorem State.raiseAt_run (s : State) (a : Int) (c : Condition) : (s.raiseAt a c).run = .halted .fault := rfl
@[simp] theorem State.raiseAt_conds (s : State) (a : Int) (c : Condition) : (s.raiseAt a c).conds = s.conds ++ [⟨c, a⟩] := rfl
@[simp] theorem State.raiseAt_reg (s : State) (a : Int) (c : Condition) (j : AddrField) : (s.raiseAt a c).reg j = s.reg j := rfl

@[simp] theorem State.raise_cfg (s : State) (c : Condition) : (s.raise c).cfg = s.cfg := rfl
@[simp] theorem State.raise_regs (s : State) (c : Condition) : (s.raise c).regs = s.regs := rfl
@[simp] theorem State.raise_pc (s : State) (c : Condition) : (s.raise c).pc = s.pc := rfl
@[simp] theorem State.raise_ir (s : State) (c : Condition) : (s.raise c).ir = s.ir := rfl
@[simp] theorem State.raise_br (s : State) (c : Condition) : (s.raise c).br = s.br := rfl
@[simp] theorem State.raise_spr (s : State) (c : Condition) : (s.raise c).spr = s.spr := rfl
@[simp] theorem State.raise_tsp (s : State) (c : Condition) : (s.raise c).tsp = s.tsp := rfl
@[simp] theorem State.raise_i1 (s : State) (c : Condition) : (s.raise c).i1 = s.i1 := rfl
@[simp] theorem State.raise_i2 (s : State) (c : Condition) : (s.raise c).i2 = s.i2 := rfl
@[simp] theorem State.raise_cr (s : State) (c : Condition) : (s.raise c).cr = s.cr := rfl
@[simp] theorem State.raise_mem (s : State) (c : Condition) : (s.raise c).mem = s.mem := rfl
@[simp] theorem State.raise_run (s : State) (c : Condition) : (s.raise c).run = .halted .fault := rfl
@[simp] theorem State.raise_conds (s : State) (c : Condition) : (s.raise c).conds = s.conds ++ [⟨c, s.instrAddr⟩] := rfl
@[simp] theorem State.raise_reg (s : State) (c : Condition) (j : AddrField) : (s.raise c).reg j = s.reg j := rfl

@[simp] theorem State.halt_cfg (s : State) (r : HaltReason) : (s.halt r).cfg = s.cfg := rfl
@[simp] theorem State.halt_regs (s : State) (r : HaltReason) : (s.halt r).regs = s.regs := rfl
@[simp] theorem State.halt_pc (s : State) (r : HaltReason) : (s.halt r).pc = s.pc := rfl
@[simp] theorem State.halt_ir (s : State) (r : HaltReason) : (s.halt r).ir = s.ir := rfl
@[simp] theorem State.halt_br (s : State) (r : HaltReason) : (s.halt r).br = s.br := rfl
@[simp] theorem State.halt_spr (s : State) (r : HaltReason) : (s.halt r).spr = s.spr := rfl
@[simp] theorem State.halt_tsp (s : State) (r : HaltReason) : (s.halt r).tsp = s.tsp := rfl
@[simp] theorem State.halt_i1 (s : State) (r : HaltReason) : (s.halt r).i1 = s.i1 := rfl
@[simp] theorem State.halt_i2 (s : State) (r : HaltReason) : (s.halt r).i2 = s.i2 := rfl
@[simp] theorem State.halt_cr (s : State) (r : HaltReason) : (s.halt r).cr = s.cr := rfl
@[simp] theorem State.halt_mem (s : State) (r : HaltReason) : (s.halt r).mem = s.mem := rfl
@[simp] theorem State.halt_conds (s : State) (r : HaltReason) : (s.halt r).conds = s.conds := rfl
@[simp] theorem State.halt_run (s : State) (r : HaltReason) : (s.halt r).run = .halted r := rfl
@[simp] theorem State.halt_reg (s : State) (r : HaltReason) (j : AddrField) : (s.halt r).reg j = s.reg j := rfl

/-! ## Addresses and bounds depend on no other field -/

theorem State.instrAddr_congr {s t : State} (h : t.pc = s.pc) : t.instrAddr = s.instrAddr := by
  simp [State.instrAddr, h]

theorem State.inMemory_congr {s t : State} (h : t.cfg = s.cfg) (a : Int) : t.inMemory a = s.inMemory a := by
  simp [State.inMemory, h]

theorem State.inMemory_iff {s : State} {a : Int} : s.inMemory a = true ↔ 0 ≤ a ∧ a < s.cfg.memSize := by
  simp [State.inMemory]

theorem State.hasReg_iff {s : State} {i : AddrField} : s.hasReg i = true ↔ i.toNat < s.cfg.nregs := by
  simp [State.hasReg]

end Sys2Proof.Machine
end

