-- ==== Sys2Proof/Laws/Ops.lean ====
section
/-! SUPPORT. One lemma per access primitive that says all it can answer, and the inversion of `State.attempt`. -/

namespace Sys2Proof.Machine

theorem memRead_ok {a : Int} {s : State} {v : Word} :
    memRead a s = .ok v ↔ s.inMemory a = true ∧ v = s.mem.read a.toNat := by
  unfold memRead
  split <;> simp_all [eq_comm (b := v)]

theorem memRead_error {a : Int} {s : State} {c : Condition} :
    memRead a s = .error c ↔ s.inMemory a = false ∧ c = .outOfRange a := by
  unfold memRead
  split <;> simp_all [eq_comm (b := c)]

theorem memWrite_ok {a : Int} {v : Word} {s t : State} :
    memWrite a v s = .ok t ↔ s.inMemory a = true ∧ t = s.setMem (s.mem.write a.toNat v) := by
  unfold memWrite
  split <;> simp_all [eq_comm (b := t)]

theorem memWrite_error {a : Int} {v : Word} {s : State} {c : Condition} :
    memWrite a v s = .error c ↔ s.inMemory a = false ∧ c = .outOfRange a := by
  unfold memWrite
  split <;> simp_all [eq_comm (b := c)]

theorem Reg.get_ok {n : RegName} {r : Reg} {v : Word} : r.get n = .ok v ↔ r = .word v := by
  cases r <;> simp [Reg.get]

theorem Reg.get_error {n : RegName} {r : Reg} {c : Condition} :
    r.get n = .error c ↔ r = .undef ∧ c = .undefinedRegister n := by
  cases r <;> simp [Reg.get, eq_comm (b := c)]

theorem readReg_ok {i : AddrField} {s : State} {v : Word} :
    readReg i s = .ok v ↔ s.hasReg i = true ∧ s.reg i = .word v := by
  unfold readReg
  split <;> simp_all [Reg.get_ok]

theorem readReg_error {i : AddrField} {s : State} {c : Condition} :
    readReg i s = .error c ↔ (s.hasReg i = false ∨ s.reg i = .undef) ∧ c = .undefinedRegister (.r i) := by
  unfold readReg
  split <;> simp_all [Reg.get_error, eq_comm (b := c)]

theorem writeReg_ok {i : AddrField} {v : Word} {s t : State} :
    writeReg i v s = .ok t ↔ s.hasReg i = true ∧ t = s.setReg i (.word v) := by
  unfold writeReg
  split <;> simp_all [eq_comm (b := t)]

theorem writeReg_error {i : AddrField} {v : Word} {s : State} {c : Condition} :
    writeReg i v s = .error c ↔ s.hasReg i = false ∧ c = .undefinedRegister (.r i) := by
  unfold writeReg
  split <;> simp_all [eq_comm (b := c)]

@[simp] theorem State.attempt_ok {α : Type} (s : State) (a : α) (k : α → Out) : s.attempt (.ok a) k = k a := rfl

@[simp] theorem State.attempt_error {α : Type} (s : State) (c : Condition) (k : α → Out) :
    s.attempt (.error c) k = .next (s.raise c) := rfl

/-- The only ways `attempt` answers a next state: the condition is taken, or the access succeeds and the rest runs. -/
theorem State.attempt_next {α : Type} {s t : State} {r : Except Condition α} {k : α → Out} :
    s.attempt r k = .next t ↔ (∃ c, r = .error c ∧ t = s.raise c) ∨ ∃ a, r = .ok a ∧ k a = .next t := by
  cases r <;> simp [eq_comm (b := t)]

/-! ## `Except` plumbing of the resolver -/

theorem Except.map_ok_iff {ε α β : Type} {f : α → β} {r : Except ε α} {b : β} :
    r.map f = .ok b ↔ ∃ a, r = .ok a ∧ f a = b := by
  cases r <;> simp [Except.map]

theorem Except.map_error_iff {ε α β : Type} {f : α → β} {r : Except ε α} {e : ε} :
    r.map f = .error e ↔ r = .error e := by
  cases r <;> simp [Except.map]

theorem Except.bind_ok_iff {ε α β : Type} {f : α → Except ε β} {r : Except ε α} {b : β} :
    r.bind f = .ok b ↔ ∃ a, r = .ok a ∧ f a = .ok b := by
  cases r <;> simp [Except.bind]

theorem Except.bind_error_iff {ε α β : Type} {f : α → Except ε β} {r : Except ε α} {e : ε} :
    r.bind f = .error e ↔ r = .error e ∨ ∃ a, r = .ok a ∧ f a = .error e := by
  cases r <;> simp [Except.bind]

end Sys2Proof.Machine
end

