-- ==== Sys2Proof/Laws/Operands.lean ====
section
/-! SUPPORT. One lemma per resolver operation that says everything it can do (spec/41_addressing.md R123). -/

namespace Sys2Proof.Machine

theorem stackPush_ok {v : Word} {s t : State} :
    stackPush v s = .ok t ↔
      s.inMemory s.tsp.toInt = true ∧ t = (s.setMem (s.mem.write s.tsp.toInt.toNat v)).setTsp (s.tsp + 1) := by
  unfold stackPush
  rw [Except.map_ok_iff]
  constructor
  · rintro ⟨u, hu, rfl⟩
    obtain ⟨h, rfl⟩ := memWrite_ok.1 hu
    exact ⟨h, rfl⟩
  · rintro ⟨h, rfl⟩
    exact ⟨_, memWrite_ok.2 ⟨h, rfl⟩, rfl⟩

theorem stackPush_error {v : Word} {s : State} {c : Condition} :
    stackPush v s = .error c ↔ s.inMemory s.tsp.toInt = false ∧ c = .outOfRange s.tsp.toInt := by
  unfold stackPush
  rw [Except.map_error_iff, memWrite_error]

theorem stackPop_ok {v : Word} {s t : State} :
    stackPop s = .ok (v, t) ↔
      s.spr.toInt < s.tsp.toInt ∧ s.inMemory (s.tsp.toInt - 1) = true ∧
        v = s.mem.read (s.tsp.toInt - 1).toNat ∧ t = s.setTsp (s.tsp - 1) := by
  unfold stackPop
  split
  · simp; omega
  · rw [Except.map_ok_iff]
    constructor
    · rintro ⟨w, hw, h⟩
      obtain ⟨hm, rfl⟩ := memRead_ok.1 hw
      simp only [Prod.mk.injEq] at h
      obtain ⟨rfl, rfl⟩ := h
      exact ⟨by omega, hm, rfl, rfl⟩
    · rintro ⟨_, hm, rfl, rfl⟩
      exact ⟨_, memRead_ok.2 ⟨hm, rfl⟩, rfl⟩

theorem stackPop_error {s : State} {c : Condition} :
    stackPop s = .error c ↔
      (s.tsp.toInt ≤ s.spr.toInt ∧ c = .stackUnderflow s.tsp) ∨
      (s.spr.toInt < s.tsp.toInt ∧ s.inMemory (s.tsp.toInt - 1) = false ∧ c = .outOfRange (s.tsp.toInt - 1)) := by
  unfold stackPop
  split
  · rename_i h
    simp [eq_comm (b := c), h]
  · rename_i h
    rw [Except.map_error_iff, memRead_error]
    simp [h]
    omega

theorem loadFrom_ok {ea : Except Condition Int} {s t : State} {v : Word} :
    loadFrom ea s = .ok (v, t) ↔ ∃ a, ea = .ok a ∧ s.inMemory a = true ∧ v = s.mem.read a.toNat ∧ t = s := by
  unfold loadFrom
  rw [Except.bind_ok_iff]
  refine exists_congr fun a => and_congr_right fun _ => ?_
  rw [Except.map_ok_iff]
  constructor
  · rintro ⟨w, hw, h⟩
    obtain ⟨hm, rfl⟩ := memRead_ok.1 hw
    simp only [Prod.mk.injEq] at h
    exact ⟨hm, h.1.symm, h.2.symm⟩
  · rintro ⟨hm, rfl, rfl⟩
    exact ⟨_, memRead_ok.2 ⟨hm, rfl⟩, rfl⟩

theorem loadFrom_error {ea : Except Condition Int} {s : State} {c : Condition} :
    loadFrom ea s = .error c ↔
      ea = .error c ∨ ∃ a, ea = .ok a ∧ s.inMemory a = false ∧ c = .outOfRange a := by
  unfold loadFrom
  rw [Except.bind_error_iff]
  simp [Except.map_error_iff, memRead_error]

theorem registerAddress_ok {a : AddrField} {s : State} {ea : Int} :
    registerAddress a s = .ok ea ↔ ∃ w, s.hasReg a = true ∧ s.reg a = .word w ∧ ea = w.toInt := by
  simp [registerAddress, Except.map_ok_iff, readReg_ok, and_assoc, eq_comm (b := ea)]

theorem registerAddress_error {a : AddrField} {s : State} {c : Condition} :
    registerAddress a s = .error c ↔
      (s.hasReg a = false ∨ s.reg a = .undef) ∧ c = .undefinedRegister (.r a) := by
  simp [registerAddress, Except.map_error_iff, readReg_error]

theorem pointerAddress_ok {a : AddrField} {s : State} {ea : Int} :
    pointerAddress a s = .ok ea ↔
      s.inMemory (zextAddr a) = true ∧ ea = (s.mem.read (zextAddr a).toNat).toInt := by
  simp [pointerAddress, Except.map_ok_iff, memRead_ok, and_assoc, eq_comm (b := ea)]

theorem pointerAddress_error {a : AddrField} {s : State} {c : Condition} :
    pointerAddress a s = .error c ↔ s.inMemory (zextAddr a) = false ∧ c = .outOfRange (zextAddr a) := by
  simp [pointerAddress, Except.map_error_iff, memRead_error]

theorem indexedAddress_ok {a : AddrField} {s : State} {ea : Int} :
    indexedAddress a s = .ok ea ↔ ∃ w, s.i1 = .word w ∧ ea = w.toInt + sextAddr a := by
  simp [indexedAddress, Except.map_ok_iff, Reg.get_ok, eq_comm (b := ea)]

theorem indexedAddress_error {a : AddrField} {s : State} {c : Condition} :
    indexedAddress a s = .error c ↔ s.i1 = .undef ∧ c = .undefinedRegister .i1 := by
  simp [indexedAddress, Except.map_error_iff, Reg.get_error]

/-- A read leaves the state alone but for one step of `TSP` in the two stack modes. -/
theorem resolveRead_ok {o : Operand} {s t : State} {v : Word} (h : resolveRead o s = .ok (v, t)) :
    (o.mode.isStack = false ∧ t = s) ∨
    (o.mode = .stackPush ∧ s.inMemory s.tsp.toInt = true ∧ t = s.setTsp (s.tsp + 1)) ∨
    (o.mode = .stackPop ∧ s.spr.toInt < s.tsp.toInt ∧ s.inMemory (s.tsp.toInt - 1) = true ∧
      t = s.setTsp (s.tsp - 1)) := by
  unfold resolveRead at h
  cases hm : o.mode <;> simp only [hm] at h
  case registerDirect =>
    obtain ⟨w, _, hw⟩ := Except.map_ok_iff.1 h
    exact .inl ⟨rfl, (Prod.mk.injEq .. ▸ hw).2.symm⟩
  case registerIndirect => exact .inl ⟨rfl, (loadFrom_ok.1 h).choose_spec.2.2.2⟩
  case direct => exact .inl ⟨rfl, (loadFrom_ok.1 h).choose_spec.2.2.2⟩
  case indirect => exact .inl ⟨rfl, (loadFrom_ok.1 h).choose_spec.2.2.2⟩
  case indexed => exact .inl ⟨rfl, (loadFrom_ok.1 h).choose_spec.2.2.2⟩
  case immediate =>
    simp only [Except.ok.injEq, Prod.mk.injEq] at h
    exact .inl ⟨rfl, h.2.symm⟩
  case stackPush =>
    obtain ⟨w, hw, he⟩ := Except.map_ok_iff.1 h
    simp only [Prod.mk.injEq] at he
    exact .inr (.inl ⟨rfl, (memRead_ok.1 hw).1, he.2.symm⟩)
  case stackPop =>
    obtain ⟨h1, h2, _, h4⟩ := stackPop_ok.1 h
    exact .inr (.inr ⟨rfl, h1, h2, h4⟩)

/-- Every condition of a read is fatal. -/
theorem resolveRead_error_fatal {o : Operand} {s : State} {c : Condition} (h : resolveRead o s = .error c) :
    c.fatal = true := by
  unfold resolveRead at h
  cases hm : o.mode <;> simp only [hm] at h
  case registerDirect => rw [Except.map_error_iff, readReg_error] at h; rw [h.2]; rfl
  case registerIndirect =>
    rcases loadFrom_error.1 h with h | ⟨_, _, _, rfl⟩
    · rw [(registerAddress_error.1 h).2]; rfl
    · rfl
  case direct =>
    rcases loadFrom_error.1 h with h | ⟨_, _, _, rfl⟩
    · simp at h
    · rfl
  case indirect =>
    rcases loadFrom_error.1 h with h | ⟨_, _, _, rfl⟩
    · rw [(pointerAddress_error.1 h).2]; rfl
    · rfl
  case indexed =>
    rcases loadFrom_error.1 h with h | ⟨_, _, _, rfl⟩
    · rw [(indexedAddress_error.1 h).2]; rfl
    · rfl
  case immediate => simp at h
  case stackPush => rw [Except.map_error_iff, memRead_error] at h; rw [h.2]; rfl
  case stackPop => rcases stackPop_error.1 h with h | h <;> simp [h, Condition.fatal]

/-- A write changes one register, or one memory word inside memory and, in mode 6, steps `TSP`. -/
theorem resolveWrite_ok {o : Operand} {v : Word} {s t : State} (h : resolveWrite o v s = .ok t) :
    (o.mode = .registerDirect ∧ s.hasReg o.addr = true ∧ t = s.setReg o.addr (.word v)) ∨
    (∃ ea, writeTarget o s = .ok (.cell ea) ∧ s.inMemory ea = true ∧ t = s.setMem (s.mem.write ea.toNat v)) ∨
    (o.mode = .stackPush ∧ writeTarget o s = .ok .freshSlot ∧ s.inMemory s.tsp.toInt = true ∧
      t = (s.setMem (s.mem.write s.tsp.toInt.toNat v)).setTsp (s.tsp + 1)) := by
  obtain ⟨tg, htg, hs⟩ := Except.bind_ok_iff.1 h
  cases tg with
  | register i =>
    obtain ⟨hr, rfl⟩ := writeReg_ok.1 hs
    unfold writeTarget at htg
    cases hm : o.mode <;> simp [hm, Except.map_ok_iff] at htg
    subst htg
    exact .inl ⟨rfl, hr, rfl⟩
  | cell ea =>
    obtain ⟨hr, rfl⟩ := memWrite_ok.1 hs
    exact .inr (.inl ⟨ea, htg, hr, rfl⟩)
  | freshSlot =>
    obtain ⟨hr, rfl⟩ := stackPush_ok.1 hs
    have hm : o.mode = .stackPush := by
      unfold writeTarget at htg
      cases hm : o.mode <;> simp [hm, Except.map_ok_iff] at htg
      rfl
    exact .inr (.inr ⟨hm, htg, hr, rfl⟩)

/-- Every condition of a write is fatal. -/
theorem resolveWrite_error_fatal {o : Operand} {v : Word} {s : State} {c : Condition}
    (h : resolveWrite o v s = .error c) : c.fatal = true := by
  rcases Except.bind_error_iff.1 h with h | ⟨tg, _, h⟩
  · unfold writeTarget at h
    cases hm : o.mode <;> simp only [hm] at h
    case registerDirect => simp at h
    case registerIndirect => rw [Except.map_error_iff] at h; rw [(registerAddress_error.1 h).2]; rfl
    case direct => simp at h
    case indirect => rw [Except.map_error_iff] at h; rw [(pointerAddress_error.1 h).2]; rfl
    case stackPush => simp at h
    all_goals
      simp only [Except.error.injEq] at h
      rw [← h]; rfl
  · cases tg with
    | register i => rw [(writeReg_error.1 h).2]; rfl
    | cell ea => rw [(memWrite_error.1 h).2]; rfl
    | freshSlot => rw [(stackPush_error.1 h).2]; rfl

end Sys2Proof.Machine
end

