-- ==== Sys2Proof/Laws/Exec.lean ====
section
/-! SUPPORT. Everything an instruction can do, said once: at most two operand reads, at most one non-fatal record,
then one ending. Invariants and frames are read off `exec_shape` and `step_cases`; no proof need unfold a meaning. -/

namespace Sys2Proof.Machine

/-- One operand read: nothing, or one step of `TSP` inside its bounds. -/
def ReadStep (s t : State) : Prop :=
  t = s ∨ (s.inMemory s.tsp.toInt = true ∧ t = s.setTsp (s.tsp + 1)) ∨
    (s.spr.toInt < s.tsp.toInt ∧ s.inMemory (s.tsp.toInt - 1) = true ∧ t = s.setTsp (s.tsp - 1))

/-- At most one non-fatal record. -/
def Reported (s t : State) : Prop := t = s ∨ ∃ c : Condition, c.fatal = false ∧ t = s.report c

theorem ReadStep.refl (s : State) : ReadStep s s := .inl rfl
theorem Reported.refl (s : State) : Reported s s := .inl rfl

theorem ReadStep.of_resolveRead {o : Operand} {s t : State} {v : Word} (h : resolveRead o s = .ok (v, t)) :
    ReadStep s t := by
  rcases resolveRead_ok h with ⟨_, h⟩ | ⟨_, h⟩ | ⟨_, h⟩
  · exact .inl h
  · exact .inr (.inl h)
  · exact .inr (.inr h)

theorem ReadStep.of_stackPop {s t : State} {v : Word} (h : stackPop s = .ok (v, t)) : ReadStep s t := by
  obtain ⟨h1, h2, _, h3⟩ := stackPop_ok.1 h
  exact .inr (.inr ⟨h1, h2, h3⟩)

/-- How an instruction ends, in the state `u` its reads and records have left. -/
inductive Ending (i : Instr) (u : State) : State → Prop where
  | raised (c : Condition) (hc : c.fatal = true) : Ending i u (u.raise c)
  | wrote (hi : i.writesOp1 = true) (v : Word) (t : State) (ht : resolveWrite i.op1 v u = .ok t) : Ending i u t
  | pushed (o1 o2 : Operand) (hi : i = .push o1 o2) (v : Word) (t : State) (ht : stackPush v u = .ok t) : Ending i u t
  | compared (o1 o2 : Operand) (hi : i = .cmp o1 o2) (c : Comparison) : Ending i u (u.setCr (.holds c))
  | jumped (hi : i.isJump = true) (v : Word) : Ending i u (u.setPc v)
  | fellThrough (hi : i.isConditionalJump = true) : Ending i u u
  | ended (hi : i.usesOp1 = false) : Ending i u (u.halt .eop)

/-- The reads, the record and the ending of one instruction. -/
def Shape (i : Instr) (s t : State) : Prop :=
  ∃ s1 s2 s3, ReadStep s s1 ∧ ReadStep s1 s2 ∧ Reported s2 s3 ∧ Ending i s3 t

theorem Shape.raisedAtOnce {i : Instr} {s : State} {c : Condition} (hc : c.fatal = true) : Shape i s (s.raise c) :=
  ⟨s, s, s, .refl s, .refl s, .refl s, .raised c hc⟩

theorem arithReports_reported {divides : Bool} {o1 o2 : Operand} {b z : Int} {s : State}
    (h : divides = true → b = 0 → z = 0) : Reported s (arithReports divides o1 o2 b z s) := by
  unfold arithReports State.reportIf
  by_cases hd : (divides && decide (b = 0)) = true
  · have hz : z = 0 := by
      simp only [Bool.and_eq_true, decide_eq_true_eq] at hd
      exact h hd.1 hd.2
    subst hz
    simp only [hd, ↓reduceIte]
    exact .inr ⟨_, rfl, rfl⟩
  · simp only [hd]
    by_cases hf : (!fitsWord z) = true
    · simp only [hf, ↓reduceIte]
      exact .inr ⟨_, rfl, rfl⟩
    · simp only [hf]
      exact .inl rfl

theorem arithmetic_shape {i : Instr} (hi : i.writesOp1 = true) {op : Int → Int → Int} {divides : Bool} {o2 : Operand}
    (hop : divides = true → ∀ a, op a 0 = 0) {s t : State} (h : arithmetic op divides i.op1 o2 s = .next t) :
    Shape i s t := by
  unfold arithmetic at h
  obtain ⟨c, hr, rfl⟩ | ⟨⟨a, s1⟩, hr, h⟩ := State.attempt_next.1 h
  · exact .raisedAtOnce (resolveRead_error_fatal hr)
  obtain ⟨c, hr2, rfl⟩ | ⟨⟨b, s2⟩, hr2, h⟩ := State.attempt_next.1 h
  · exact ⟨s1, s1, s1, .of_resolveRead hr, .refl _, .refl _, .raised c (resolveRead_error_fatal hr2)⟩
  have hrep : Reported s2 (arithReports divides i.op1 o2 b.toInt (op a.toInt b.toInt) s2) :=
    arithReports_reported fun hd hb => by rw [hb]; exact hop hd _
  refine ⟨s1, s2, _, .of_resolveRead hr, .of_resolveRead hr2, hrep, ?_⟩
  obtain ⟨c, hw, rfl⟩ | ⟨u, hw, h⟩ := State.attempt_next.1 h
  · exact .raised c (resolveWrite_error_fatal hw)
  · simp only [Host.Outcome.next.injEq] at h
    subst h
    exact .wrote hi _ _ hw

theorem jumpTo_shape {i : Instr} (hi : i.isJump = true) {o : Operand} {s t : State} (h : jumpTo o s = .next t) :
    Shape i s t := by
  obtain ⟨c, hr, rfl⟩ | ⟨⟨v, s1⟩, hr, h⟩ := State.attempt_next.1 h
  · exact .raisedAtOnce (resolveRead_error_fatal hr)
  · simp only [Host.Outcome.next.injEq] at h
    subst h
    exact ⟨s1, s1, s1, .of_resolveRead hr, .refl _, .refl _, .jumped hi v⟩

theorem conditionalJump_shape {i : Instr} (hi : i.isConditionalJump = true) (hj : i.isJump = true)
    {cond : Comparison → Bool} {o : Operand} {s t : State} (h : conditionalJump cond o s = .next t) : Shape i s t := by
  unfold conditionalJump at h
  split at h
  · simp only [Host.Outcome.next.injEq] at h
    subst h
    exact .raisedAtOnce rfl
  · split at h
    · exact jumpTo_shape hj h
    · simp only [Host.Outcome.next.injEq] at h
      subst h
      exact ⟨s, s, s, .refl _, .refl _, .refl _, .fellThrough hi⟩

theorem execCmp_shape {o1 o2 : Operand} {s t : State} (h : execCmp o1 o2 s = .next t) : Shape (.cmp o1 o2) s t := by
  obtain ⟨c, hr, rfl⟩ | ⟨⟨a, s1⟩, hr, h⟩ := State.attempt_next.1 h
  · exact .raisedAtOnce (resolveRead_error_fatal hr)
  obtain ⟨c, hr2, rfl⟩ | ⟨⟨b, s2⟩, hr2, h⟩ := State.attempt_next.1 h
  · exact ⟨s1, s1, s1, .of_resolveRead hr, .refl _, .refl _, .raised c (resolveRead_error_fatal hr2)⟩
  simp only [Host.Outcome.next.injEq] at h
  subst h
  exact ⟨s1, s2, s2, .of_resolveRead hr, .of_resolveRead hr2, .refl _, .compared o1 o2 rfl _⟩

theorem execMov_shape {o1 o2 : Operand} {s t : State} (h : execMov o1 o2 s = .next t) : Shape (.mov o1 o2) s t := by
  obtain ⟨c, hr, rfl⟩ | ⟨⟨v, s1⟩, hr, h⟩ := State.attempt_next.1 h
  · exact .raisedAtOnce (resolveRead_error_fatal hr)
  refine ⟨s1, s1, s1, .of_resolveRead hr, .refl _, .refl _, ?_⟩
  obtain ⟨c, hw, rfl⟩ | ⟨u, hw, h⟩ := State.attempt_next.1 h
  · exact .raised c (resolveWrite_error_fatal hw)
  · simp only [Host.Outcome.next.injEq] at h
    subst h
    exact .wrote rfl v _ hw

theorem execPush_shape {o1 o2 : Operand} {s t : State} (h : execPush o1 s = .next t) : Shape (.push o1 o2) s t := by
  obtain ⟨c, hr, rfl⟩ | ⟨⟨v, s1⟩, hr, h⟩ := State.attempt_next.1 h
  · exact .raisedAtOnce (resolveRead_error_fatal hr)
  refine ⟨s1, s1, s1, .of_resolveRead hr, .refl _, .refl _, ?_⟩
  obtain ⟨c, hw, rfl⟩ | ⟨u, hw, h⟩ := State.attempt_next.1 h
  · exact .raised c (by rw [(stackPush_error.1 hw).2]; rfl)
  · simp only [Host.Outcome.next.injEq] at h
    subst h
    exact .pushed o1 o2 rfl v _ hw

theorem execPop_shape {o1 o2 : Operand} {s t : State} (h : execPop o1 s = .next t) : Shape (.pop o1 o2) s t := by
  obtain ⟨c, hr, rfl⟩ | ⟨⟨v, s1⟩, hr, h⟩ := State.attempt_next.1 h
  · refine .raisedAtOnce ?_
    rcases stackPop_error.1 hr with h | h <;> simp [h, Condition.fatal]
  refine ⟨s1, s1, s1, .of_stackPop hr, .refl _, .refl _, ?_⟩
  obtain ⟨c, hw, rfl⟩ | ⟨u, hw, h⟩ := State.attempt_next.1 h
  · exact .raised c (resolveWrite_error_fatal hw)
  · simp only [Host.Outcome.next.injEq] at h
    subst h
    exact .wrote rfl v _ hw

theorem halt_shape {i : Instr} (hi : i.usesOp1 = false) {s t : State} (h : (.next (s.halt .eop) : Out) = .next t) :
    Shape i s t := by
  simp only [Host.Outcome.next.injEq] at h
  subst h
  exact ⟨s, s, s, .refl _, .refl _, .refl _, .ended hi⟩

/-- Whatever the instruction, if it answers a next state it did one of these. -/
theorem exec_shape {i : Instr} {s t : State} (h : exec i s = .next t) : Shape i s t := by
  cases i with
  | add o1 o2 => exact arithmetic_shape (i := .add o1 o2) rfl (by simp) h
  | sub o1 o2 => exact arithmetic_shape (i := .sub o1 o2) rfl (by simp) h
  | mul o1 o2 => exact arithmetic_shape (i := .mul o1 o2) rfl (by simp) h
  | div o1 o2 => exact arithmetic_shape (i := .div o1 o2) rfl (by simp [divResult]) h
  | mod o1 o2 => exact arithmetic_shape (i := .mod o1 o2) rfl (by simp [modResult]) h
  | cmp o1 o2 => exact execCmp_shape h
  | mov o1 o2 => exact execMov_shape h
  | push o1 o2 => exact execPush_shape h
  | pop o1 o2 => exact execPop_shape h
  | jmp o1 o2 => exact jumpTo_shape rfl h
  | jeq o1 o2 => exact conditionalJump_shape rfl rfl h
  | jne o1 o2 => exact conditionalJump_shape rfl rfl h
  | jlt o1 o2 => exact conditionalJump_shape rfl rfl h
  | jle o1 o2 => exact conditionalJump_shape rfl rfl h
  | jgt o1 o2 => exact conditionalJump_shape rfl rfl h
  | jge o1 o2 => exact conditionalJump_shape rfl rfl h
  | eop o1 o2 => exact halt_shape rfl h
  | func o1 o2 => exact halt_shape rfl h

/-! ## The step -/

/-- The only ways a step answers a next state (spec/40_cycle.md R80). -/
theorem step_cases {s t : State} (h : step s = .next t) :
    s.run = .running ∧
    ((s.inWindow = false ∧ t = s.halt .windowExit) ∨
     (s.inWindow = true ∧ s.inMemory s.pc.toInt = false ∧ t = s.raiseAt s.pc.toInt (.outOfRange s.pc.toInt)) ∨
     (s.inWindow = true ∧ s.inMemory s.pc.toInt = true ∧ s.mem.read s.pc.toInt.toNat = 0 ∧
       t = (latch 0 s).halt .zeroWord) ∨
     (∃ w e, s.inWindow = true ∧ s.inMemory s.pc.toInt = true ∧ w = s.mem.read s.pc.toInt.toNat ∧ w ≠ 0 ∧
       decode w = .error e ∧ t = (advancePc (latch w s)).raise (.decodeFailure w)) ∨
     (∃ w i, s.inWindow = true ∧ s.inMemory s.pc.toInt = true ∧ w = s.mem.read s.pc.toInt.toNat ∧ w ≠ 0 ∧
       decode w = .ok i ∧ exec i (advancePc (latch w s)) = .next t)) := by
  unfold step at h
  split at h
  · simp at h
  rename_i hrun
  refine ⟨hrun, ?_⟩
  unfold fetch at h
  by_cases hw : s.inWindow = true
  · simp only [hw, ↓reduceIte] at h
    cases hr : memRead s.pc.toInt s with
    | error c =>
      obtain ⟨hm, rfl⟩ := memRead_error.1 hr
      simp only [hr, Host.Outcome.next.injEq] at h
      exact .inr (.inl ⟨hw, hm, h.symm⟩)
    | ok w =>
      obtain ⟨hm, rfl⟩ := memRead_ok.1 hr
      simp only [hr] at h
      by_cases hz : s.mem.read s.pc.toInt.toNat = 0
      · simp only [hz, ↓reduceIte, Host.Outcome.next.injEq] at h
        exact .inr (.inr (.inl ⟨hw, hm, hz, h.symm⟩))
      · simp only [hz, ↓reduceIte, decodeStage] at h
        cases hd : decode (s.mem.read s.pc.toInt.toNat) with
        | error e =>
          simp only [hd, Host.Outcome.next.injEq] at h
          exact .inr (.inr (.inr (.inl ⟨_, e, hw, hm, rfl, hz, hd, h.symm⟩)))
        | ok i =>
          simp only [hd] at h
          exact .inr (.inr (.inr (.inr ⟨_, i, hw, hm, rfl, hz, hd, h⟩)))
  · simp only [hw, Bool.false_eq_true, ↓reduceIte, Host.Outcome.next.injEq] at h
    exact .inl ⟨by simpa using hw, h.symm⟩

end Sys2Proof.Machine
end

