-- ==== Sys2Proof/Laws/Memory.lean ====
section
/-! SUPPORT. Memory as a sorted list: read after write, everything else unchanged, and every operation keeps the
canonical form and the bound. -/

namespace Sys2Proof.Machine

theorem Memory.read_erase (m : Memory) (a b : Nat) :
    (m.erase a).read b = if b = a then Memory.unlisted else m.read b := by
  induction m with
  | nil => simp [Memory.erase, Memory.read]
  | cons p rest ih =>
    obtain ⟨c, w⟩ := p
    by_cases hc : c = a
    · subst hc
      by_cases hb : b = c
      · simpa [Memory.erase, hb] using ih
      · simp [Memory.erase, Memory.read, ih, hb, Ne.symm hb]
    · by_cases hb : c = b
      · subst hb
        simp [Memory.erase, Memory.read, hc]
      · simp [Memory.erase, Memory.read, hc, hb, ih]

theorem Memory.read_put (m : Memory) (a b : Nat) (v : Word) :
    (m.put a v).read b = if b = a then v else m.read b := by
  induction m with
  | nil => by_cases hb : b = a <;> simp [Memory.put, Memory.read, hb, eq_comm (a := a)]
  | cons p rest ih =>
    obtain ⟨c, w⟩ := p
    unfold Memory.put
    split
    · by_cases hb : b = a
      · simp [Memory.read, hb]
      · simp [Memory.read, hb, Ne.symm hb]
    · split
      · subst_vars
        by_cases hb : b = c
        · simp [Memory.read, hb]
        · simp [Memory.read, hb, Ne.symm hb]
      · by_cases hb : b = a
        · subst hb
          rename_i h2
          simp [Memory.read, ih, Ne.symm h2]
        · simp [Memory.read, ih, hb]

/-- The two laws of memory: a word written is read back, and no other word changes (spec/20_memory.md R42, R49). -/
theorem Memory.read_write (m : Memory) (a b : Nat) (v : Word) :
    (m.write a v).read b = if b = a then v else m.read b := by
  unfold Memory.write
  split
  · rename_i h
    rw [Memory.read_erase, h]
  · exact Memory.read_put m a b v

@[simp] theorem Memory.read_write_same (m : Memory) (a : Nat) (v : Word) : (m.write a v).read a = v := by
  simp [Memory.read_write]

theorem Memory.read_write_other (m : Memory) {a b : Nat} (v : Word) (h : b ≠ a) :
    (m.write a v).read b = m.read b := by
  simp [Memory.read_write, h]

@[simp] theorem Memory.read_nil (a : Nat) : Memory.read [] a = Memory.unlisted := rfl

/-! ## The canonical form -/

theorem Memory.wfFrom_cons {lo b : Nat} {w : Word} {rest : Memory} :
    Memory.wfFrom lo ((b, w) :: rest) = true ↔
      lo ≤ b ∧ w ≠ Memory.unlisted ∧ Memory.wfFrom (b + 1) rest = true := by
  simp [Memory.wfFrom, and_assoc]

theorem Memory.wfFrom_mono {lo lo' : Nat} (m : Memory) (h : lo ≤ lo') (hm : Memory.wfFrom lo' m = true) :
    Memory.wfFrom lo m = true := by
  cases m with
  | nil => rfl
  | cons p rest =>
    rw [Memory.wfFrom_cons] at hm ⊢
    exact ⟨by omega, hm.2⟩

theorem Memory.wfFrom_erase {lo : Nat} (m : Memory) (a : Nat) (hm : Memory.wfFrom lo m = true) :
    Memory.wfFrom lo (m.erase a) = true := by
  induction m generalizing lo with
  | nil => rfl
  | cons p rest ih =>
    obtain ⟨b, w⟩ := p
    rw [Memory.wfFrom_cons] at hm
    obtain ⟨hlo, hw, hr⟩ := hm
    unfold Memory.erase
    split
    · exact Memory.wfFrom_mono _ (by omega) (ih hr)
    · exact Memory.wfFrom_cons.2 ⟨hlo, hw, ih hr⟩

theorem Memory.wfFrom_put {lo : Nat} (m : Memory) (a : Nat) (v : Word) (hv : v ≠ Memory.unlisted) (hlo : lo ≤ a)
    (hm : Memory.wfFrom lo m = true) : Memory.wfFrom lo (m.put a v) = true := by
  induction m generalizing lo with
  | nil => exact Memory.wfFrom_cons.2 ⟨hlo, hv, rfl⟩
  | cons p rest ih =>
    obtain ⟨b, w⟩ := p
    have hm' := Memory.wfFrom_cons.1 hm
    unfold Memory.put
    split
    · exact Memory.wfFrom_cons.2 ⟨hlo, hv, Memory.wfFrom_cons.2 ⟨by omega, hm'.2⟩⟩
    · split
      · subst_vars
        exact Memory.wfFrom_cons.2 ⟨hlo, hv, hm'.2.2⟩
      · exact Memory.wfFrom_cons.2 ⟨hm'.1, hm'.2.1, ih (by omega) hm'.2.2⟩

/-- A write keeps the canonical form. -/
theorem Memory.wf_write (m : Memory) (a : Nat) (v : Word) (hm : m.wf = true) : (m.write a v).wf = true := by
  unfold Memory.write
  split
  · exact Memory.wfFrom_erase m a hm
  · rename_i hv
    exact Memory.wfFrom_put m a v hv (Nat.zero_le a) hm

@[simp] theorem Memory.wf_nil : Memory.wf [] = true := rfl

theorem Memory.reset_wf : State.reset.mem.wf = true := rfl

/-- A write lists no address but the old ones and its own. -/
theorem Memory.mem_write {m : Memory} {a : Nat} {v : Word} {p : Nat × Word} (h : p ∈ m.write a v) :
    p ∈ m ∨ p.1 = a := by
  unfold Memory.write at h
  split at h
  · left
    induction m with
    | nil => simp [Memory.erase] at h
    | cons q rest ih =>
      obtain ⟨b, w⟩ := q
      unfold Memory.erase at h
      split at h
      · exact List.mem_cons_of_mem _ (ih h)
      · rcases List.mem_cons.1 h with h | h
        · simp [h]
        · exact List.mem_cons_of_mem _ (ih h)
  · induction m with
    | nil =>
      simp [Memory.put] at h
      simp [h]
    | cons q rest ih =>
      obtain ⟨b, w⟩ := q
      unfold Memory.put at h
      split at h
      · rcases List.mem_cons.1 h with h | h
        · exact .inr (by simp [h])
        · exact .inl h
      · split at h
        · rcases List.mem_cons.1 h with h | h
          · exact .inr (by simp [h])
          · exact .inl (List.mem_cons_of_mem _ h)
        · rcases List.mem_cons.1 h with h | h
          · exact .inl (by simp [h])
          · rcases ih h with h | h
            · exact .inl (List.mem_cons_of_mem _ h)
            · exact .inr h

end Sys2Proof.Machine
end

