-- ==== Sys2Proof/Laws/PerInstr.lean ====
section
/-! SUPPORT. Per-instruction families: one lemma per constructor. -/

namespace Sys2Proof.Laws

/-- The family `OpcodeField`: an instruction's word carries its opcode number in bits 31:27, its operands' fields in
their places and zero in the reserved field (spec/30_encoding.md R61, R63, R72). -/
def OpcodeField.Statement (i : Instr) : Prop :=
  (encode i).toNat / 134217728 = i.opcode ∧ mode1Field (encode i) = modeTag i.op1.mode ∧
    addr1Field (encode i) = i.op1.addr ∧ mode2Field (encode i) = modeTag i.op2.mode ∧
    addr2Field (encode i) = i.op2.addr ∧ rsvdField (encode i) = 0

theorem opcodeField_all (i : Instr) : OpcodeField.Statement i := by
  have hv := encode_toNat i
  have h0 := i.opcode_lt
  have h1 := (modeTag i.op1.mode).isLt
  have h2 := i.op1.addr.isLt
  have h3 := (modeTag i.op2.mode).isLt
  have h4 := i.op2.addr.isLt
  refine ⟨by omega, ?_, ?_, ?_, ?_, ?_⟩ <;> apply BitVec.eq_of_toNat_eq
  · rw [mode1Field_toNat]; omega
  · rw [addr1Field_toNat]; omega
  · rw [mode2Field_toNat]; omega
  · rw [addr2Field_toNat]; omega
  · rw [rsvdField_toNat]; simp; omega

theorem OpcodeField.add (o1 o2 : Operand) : OpcodeField.Statement (.add o1 o2) := opcodeField_all _
theorem OpcodeField.sub (o1 o2 : Operand) : OpcodeField.Statement (.sub o1 o2) := opcodeField_all _
theorem OpcodeField.mul (o1 o2 : Operand) : OpcodeField.Statement (.mul o1 o2) := opcodeField_all _
theorem OpcodeField.div (o1 o2 : Operand) : OpcodeField.Statement (.div o1 o2) := opcodeField_all _
theorem OpcodeField.mod (o1 o2 : Operand) : OpcodeField.Statement (.mod o1 o2) := opcodeField_all _
theorem OpcodeField.cmp (o1 o2 : Operand) : OpcodeField.Statement (.cmp o1 o2) := opcodeField_all _
theorem OpcodeField.mov (o1 o2 : Operand) : OpcodeField.Statement (.mov o1 o2) := opcodeField_all _
theorem OpcodeField.push (o1 o2 : Operand) : OpcodeField.Statement (.push o1 o2) := opcodeField_all _
theorem OpcodeField.pop (o1 o2 : Operand) : OpcodeField.Statement (.pop o1 o2) := opcodeField_all _
theorem OpcodeField.jmp (o1 o2 : Operand) : OpcodeField.Statement (.jmp o1 o2) := opcodeField_all _
theorem OpcodeField.jeq (o1 o2 : Operand) : OpcodeField.Statement (.jeq o1 o2) := opcodeField_all _
theorem OpcodeField.jne (o1 o2 : Operand) : OpcodeField.Statement (.jne o1 o2) := opcodeField_all _
theorem OpcodeField.jlt (o1 o2 : Operand) : OpcodeField.Statement (.jlt o1 o2) := opcodeField_all _
theorem OpcodeField.jle (o1 o2 : Operand) : OpcodeField.Statement (.jle o1 o2) := opcodeField_all _
theorem OpcodeField.jgt (o1 o2 : Operand) : OpcodeField.Statement (.jgt o1 o2) := opcodeField_all _
theorem OpcodeField.jge (o1 o2 : Operand) : OpcodeField.Statement (.jge o1 o2) := opcodeField_all _
theorem OpcodeField.eop (o1 o2 : Operand) : OpcodeField.Statement (.eop o1 o2) := opcodeField_all _
theorem OpcodeField.func (o1 o2 : Operand) : OpcodeField.Statement (.func o1 o2) := opcodeField_all _

end Sys2Proof.Laws
end

