-- ==== Sys2Proof/Tests/Slice0.lean ====
section
/-! SUPPORT. The model's own tests: well-formedness, decoding, one step of each instruction, the assembler; and, for every
statement with hypotheses, a witness that meets them. Expected values are those of spec/95_test_vectors.md (section in the
comment) or calculated by hand from the rules. -/

set_option maxRecDepth 8000

open Sys2Proof Sys2Proof.Machine Sys2Proof.Claims

namespace Sys2Proof.Tests

/-! ## Helpers -/

def r (n : AddrField) : Operand := ⟨.registerDirect, n⟩
def ind (n : AddrField) : Operand := ⟨.registerIndirect, n⟩
def dir (n : AddrField) : Operand := ⟨.direct, n⟩
def ptr (n : AddrField) : Operand := ⟨.indirect, n⟩
def idx (n : AddrField) : Operand := ⟨.indexed, n⟩
def imm (n : AddrField) : Operand := ⟨.immediate, n⟩
def psh : Operand := ⟨.stackPush, 0⟩
def pp : Operand := ⟨.stackPop, 0⟩

/-- A loaded machine with chosen registers, memory words, `TSP` and `PC`. -/
def mach (regs : List (PresetReg × Word)) (mem : List (Nat × Word)) (tsp pc : Word) : State :=
  ((startWith ⟨[], mem, regs⟩ State.reset).setTsp tsp).setPc pc

/-- Two registers, empty stack, executing the instruction at 128. -/
def two (a b : Word) : State := mach [(.r 1, a), (.r 2, b)] [] 192 129

/-- The common start of section 3.2, executing the instruction at 128. -/
def vec32 : State :=
  mach [(.r 3, 9), (.r 4, 20), (.r 9, -1), (.r 8, 256), (.i1, 40)]
    [(10, 20), (11, 300), (16, 15), (20, 99), (39, 0xFFFFFFFE), (42, 77), (192, 5), (193, 6), (194, 0x55)] 194 129

/-- Fewer registers and the other rounding. -/
def small : Config := { Config.reference with nregs := 8, divRounding := .floor }

/-- `two` under the other rounding. -/
def floored (a b : Word) : State := { two a b with cfg := { Config.reference with divRounding := .floor } }

def nx {α : Type} (f : State → α) : Out → Option α
  | .next t => some (f t)
  | .fault _ => none
  | .refused _ => none

/-- One step on the word `w` placed where the machine fetches. -/
def stepOn {α : Type} (f : State → α) (w : Nat) (s : State) : Option α := nx f (step (s.withFetchWord 32 w))

theorem of_nx {α : Type} {f : State → α} {o : Out} {a : α} (h : nx f o = some a) : ∃ t, o = .next t ∧ f t = a := by
  cases o with
  | next t => exact ⟨t, rfl, by simpa [nx] using h⟩
  | fault r => simp [nx] at h
  | refused r => simp [nx] at h

/-- The invariant of a state in the reference configuration, by what can be computed. -/
theorem inv_of {s : State} (hc : s.cfg = .reference) (hm : s.mem.wf = true) (hb : (s.mem.all fun p => decide (p.1 < 256)) = true)
    (hs : s.spr = 192) (ht : decide (192 ≤ s.tsp.toInt ∧ s.tsp.toInt ≤ 256) = true) (hr : s.run = .running)
    (hl : s.conds = []) : s.Inv := by
  have ht := of_decide_eq_true ht
  have hspr : s.spr.toInt = 192 := by rw [hs]; decide
  refine ⟨by rw [hc]; decide, hm, fun p hp => ?_, by rw [hspr, hc]; rfl, by omega, by rw [hc]; exact ht.2, fun i hi => ?_, ?_⟩
  · rw [hc]
    exact of_decide_eq_true (List.all_eq_true.1 hb p hp)
  · rw [hc] at hi
    exact absurd i.isLt (by simpa [Config.reference] using hi)
  · unfold State.logMatchesRun
    rw [hr, hl]
    simp

/-! ## Well-formedness: each check refuses an ill-formed term -/

theorem test_wf_refuses_the_zero_word : Instr.wf (.add .missing .missing) = false := by decide
theorem test_wf_admits_its_neighbour : Instr.wf (.add .missing (r 1)) = true := by decide
theorem test_canonical_refuses_a_used_operand_2 : Instr.canonical (.push (r 1) (imm 0x2A)) = false := by decide
theorem test_canonical_refuses_a_used_operand_1 : Instr.canonical (.eop (r 1) .missing) = false := by decide
theorem test_canonical_refuses_the_zero_word : Instr.canonical (.add .missing .missing) = false := by decide
theorem test_config_refuses_each_bound :
    Config.wf { Config.reference with memSize := 0 } = false ∧
    Config.wf { Config.reference with memSize := 2147483648 } = false ∧
    Config.wf { Config.reference with iwinSize := 0 } = false ∧
    Config.wf { Config.reference with iwinSize := 129 } = false ∧
    Config.wf { Config.reference with stackBase := 257 } = false ∧
    Config.wf { Config.reference with nregs := 0 } = false ∧
    Config.wf { Config.reference with nregs := 257 } = false ∧ Config.reference.wf = true := by decide
theorem test_image_refuses_each_bound :
    LoadImage.wf { Config.reference with iwinSize := 1 } ⟨[1, 2], [], []⟩ = false ∧
    LoadImage.wf .reference ⟨[], [(256, 1)], []⟩ = false ∧ LoadImage.wf small ⟨[], [], [(.r 8, 1)]⟩ = false ∧
    LoadImage.wf small ⟨[1], [(255, 1)], [(.r 7, 1), (.i1, 2)]⟩ = true := by decide
theorem test_memory_form_refuses :
    Memory.wf [(5, 0)] = false ∧ Memory.wf [(5, 1), (5, 2)] = false ∧ Memory.wf [(6, 1), (5, 2)] = false ∧
    Memory.wf [(5, 1), (6, 2)] = true := by decide

/-! ## Decoding: words written out in sections 2.1 and 2.2 -/

theorem test_decode_add : decode 0x00010040 = .ok (.add (r 1) (r 2)) := by decide
theorem test_decode_sub : decode 0x0801A020 = .ok (.sub (r 1) (imm 1)) := by decide
theorem test_decode_mul : decode 0x10032080 = .ok (.mul (r 3) (ind 4)) := by decide
/-- The row whose bits section 2.1 writes out one by one. -/
theorem test_decode_div : decode 0b00011010000001010110000011000000 = .ok (.div (dir 5) (ptr 6)) := by decide
theorem test_decode_mod : decode 0x20019FC0 = .ok (.mod (r 1) (idx 0xFE)) := by decide
theorem test_decode_cmp : decode 0x28010040 = .ok (.cmp (r 1) (r 2)) := by decide
theorem test_decode_mov : decode 0x40FFBFE0 = .ok (.mov (r 255) (imm 255)) := by decide
theorem test_decode_mov_stack : decode 0x4600E000 = .ok (.mov psh pp) := by decide
theorem test_decode_push_unused_operand : decode 0x4801E540 = .ok (.push (r 1) ⟨.stackPop, 0x2A⟩) := by decide
theorem test_decode_pop : decode 0x50020000 = .ok (.pop (r 2) .missing) := by decide
theorem test_decode_jmp : decode 0x85830000 = .ok (.jmp (imm 131) .missing) := by decide
theorem test_decode_jeq : decode 0x8D840000 = .ok (.jeq (imm 132) .missing) := by decide
theorem test_decode_jne : decode 0x90070000 = .ok (.jne (r 7) .missing) := by decide
theorem test_decode_jlt : decode 0x9D830000 = .ok (.jlt (imm 131) .missing) := by decide
theorem test_decode_jle : decode 0xA2140000 = .ok (.jle (dir 20) .missing) := by decide
theorem test_decode_jgt : decode 0xAB140000 = .ok (.jgt (ptr 20) .missing) := by decide
theorem test_decode_jge : decode 0xB1030000 = .ok (.jge (ind 3) .missing) := by decide
theorem test_decode_eop : decode 0xC1234560 = .ok (.eop (ind 0x23) ⟨.direct, 0x2B⟩) := by decide
theorem test_decode_func : decode 0xC8000000 = .ok (.func .missing .missing) := by decide
theorem test_decode_rejects_unassigned :
    decode 0x38000000 = .error (.unassignedOpcode 0 7) ∧ decode 0x30000000 = .error (.unassignedOpcode 0 6) ∧
    decode 0x58000000 = .error (.unassignedOpcode 1 3) ∧ decode 0xB8000000 = .error (.unassignedOpcode 2 7) ∧
    decode 0xD0000000 = .error (.unassignedOpcode 3 2) ∧ decode 0xFFFFFFFF = .error (.unassignedOpcode 3 7) := by decide
theorem test_decode_rejects_reserved :
    decode 0x4001A021 = .error (.reservedNotZero 1) ∧ decode 0xC000001F = .error (.reservedNotZero 31) := by decide
theorem test_encode_section_2_1 :
    encode (.mod (r 1) (idx 0xFE)) = 0x20019FC0 ∧ encode (.mov (ind 3) (imm 1)) = 0x4103A020 ∧
    encode (.func .missing .missing) = 0xC8000000 := by decide

/-! ## The step: section 3.1 -/

theorem test_step_window_exit :
    stepOn (fun t => (t.run, t.pc, t.ir)) 0x4001A0A0 State.reset = some (.running, 129, .word 0x4001A0A0) ∧
    nx (fun t => (t.run, t.pc, t.ir)) (step (State.reset.setPc (-5))) = some (.halted .windowExit, -5, .undef) ∧
    nx (fun t => t.run) (step (State.reset.setPc 192)) = some (.halted .windowExit) := by decide
theorem test_step_zero_word :
    nx (fun t => (t.run, t.pc, t.ir)) (step (State.reset.setPc 140)) = some (.halted .zeroWord, 140, .word 0) := by decide
theorem test_step_decode_failure :
    stepOn (fun t => (t.run, t.pc, t.conds)) 0x38000000 (State.reset.setPc 129) =
      some (.halted .fault, 130, [⟨.decodeFailure 0x38000000, 129⟩]) := by decide
/-- As P13, by hand: `MOV 129, 130` copies the EOP word over the next address, and the second step fetches it. -/
theorem test_step_self_modifying :
    nx (fun t => (t.run, t.pc)) (Sys2Proof.core.run 2 (startWith ⟨[0x42815040, 0, 0xC0000000], [], []⟩ State.reset)) =
      some (.halted .eop, 130) := by decide

/-! ## The resolver: section 3.2 -/

def readOut (o : Operand) (s : State) : Except Condition (Int × Word) :=
  (resolveRead o s).map fun p => (p.1.toInt, p.2.tsp)

theorem test_read_values :
    readOut (r 3) vec32 = .ok (9, 194) ∧ readOut (ind 4) vec32 = .ok (99, 194) ∧ readOut (dir 39) vec32 = .ok (-2, 194) ∧
    readOut (ptr 10) vec32 = .ok (99, 194) ∧ readOut (idx 2) vec32 = .ok (77, 194) ∧
    readOut (idx 0xFF) vec32 = .ok (-2, 194) ∧ readOut (imm 200) vec32 = .ok (200, 194) ∧
    readOut psh vec32 = .ok (85, 195) ∧ readOut pp vec32 = .ok (6, 193) := by decide
theorem test_read_conditions :
    readOut (r 7) vec32 = .error (.undefinedRegister (.r 7)) ∧ readOut (ind 9) vec32 = .error (.outOfRange (-1)) ∧
    readOut (ind 8) vec32 = .error (.outOfRange 256) ∧ readOut (ptr 11) vec32 = .error (.outOfRange 300) ∧
    readOut (idx 2) (two 1 1) = .error (.undefinedRegister .i1) ∧
    readOut pp (vec32.setTsp 192) = .error (.stackUnderflow 192) := by decide

def writeOut {α : Type} (f : State → α) (o : Operand) (v : Word) (s : State) : Except Condition α := (resolveWrite o v s).map f

theorem test_write_values :
    writeOut (fun t => t.reg 5) (r 5) (-3) vec32 = .ok (.word 0xFFFFFFFD) ∧
    writeOut (fun t => t.cell 20) (ind 4) (-3) vec32 = .ok 0xFFFFFFFD ∧
    writeOut (fun t => t.cell 16) (dir 16) 1 vec32 = .ok 1 ∧
    writeOut (fun t => (t.cell 20, t.cell 10)) (ptr 10) 1 vec32 = .ok (1, 20) ∧
    writeOut (fun t => (t.cell 194, t.tsp)) psh 8 vec32 = .ok (8, 195) := by decide
theorem test_write_conditions :
    writeOut State.tsp (idx 2) 1 vec32 = .error (.invalidWriteTarget (idx 2)) ∧
    writeOut State.tsp (imm 3) 1 vec32 = .error (.invalidWriteTarget (imm 3)) ∧
    writeOut State.tsp pp 1 vec32 = .error (.invalidWriteTarget pp) ∧
    writeOut State.tsp psh 8 (vec32.setTsp 256) = .error (.outOfRange 256) := by decide

/-! ## Instructions: sections 3.3 to 3.6 -/

def r1log (t : State) : Reg × List CondRecord := (t.reg 1, t.conds)

theorem test_add_overflow :
    stepOn r1log 0x00010040 ((two 2147483647 1).setPc 128) = some (.word 0x80000000, [⟨.overflow (r 1), 128⟩]) := by decide
/-- Section 3.3: `ADD push, #1`. -/
theorem test_add_push_moves_tsp_twice :
    stepOn (fun t => (t.cell 192, t.cell 193, t.tsp)) 0x0600A020 (mach [] [(192, 5)] 192 128) = some (5, 6, 194) := by decide
theorem test_sub :
    stepOn r1log 0x08010040 ((two (-7) 2).setPc 128) = some (.word (-9), []) := by decide
theorem test_sub_overflow :
    stepOn r1log 0x08010040 ((two 0 0x80000000).setPc 128) = some (.word 0x80000000, [⟨.overflow (r 1), 128⟩]) := by decide
theorem test_mul_wraps :
    stepOn r1log 0x10010040 ((two 46341 46341).setPc 128) = some (.word (-2147479015), [⟨.overflow (r 1), 128⟩]) := by decide
theorem test_mul_memory_target :
    stepOn (fun t => (t.cell 16, t.reg 2)) 0x12100040 (mach [(.r 2, 3)] [(16, 4)] 192 128) = some (12, .word 3) := by decide
theorem test_div_rounding :
    stepOn r1log 0x18010040 ((two (-7) 2).setPc 128) = some (.word (-3), []) ∧
    stepOn r1log 0x18010040 ((floored (-7) 2).setPc 128) = some (.word (-4), []) := by decide
theorem test_div_by_zero_and_overflow :
    stepOn r1log 0x18010040 ((two 5 0).setPc 128) = some (.word 0, [⟨.divisionByZero (r 2), 128⟩]) ∧
    stepOn r1log 0x18010040 ((two 0x80000000 (-1)).setPc 128) = some (.word 0x80000000, [⟨.overflow (r 1), 128⟩]) := by decide
theorem test_mod_rounding :
    stepOn r1log 0x20010040 ((two 7 (-2)).setPc 128) = some (.word 1, []) ∧
    stepOn r1log 0x20010040 ((floored 7 (-2)).setPc 128) = some (.word (-1), []) := by decide
theorem test_mod_by_zero :
    stepOn r1log 0x20010040 ((floored 0 0).setPc 128) = some (.word 0, [⟨.divisionByZero (r 2), 128⟩]) := by decide
theorem test_cmp_is_exact :
    stepOn (fun t => (t.cr, t.conds)) 0x28010040 ((two 0x80000000 1).setPc 128) = some (.holds .less, []) ∧
    stepOn (fun t => t.cr) 0x28010040 ((two 4 4).setPc 128) = some (.holds .equal) := by decide
/-- Section 3.3: `CMP pop, pop` reads the top first. -/
theorem test_cmp_pop_pop :
    stepOn (fun t => (t.cr, t.tsp)) 0x2F00E000 (mach [] [(192, 1), (193, 2)] 194 128) = some (.holds .greater, 192) := by decide
theorem test_mov_memory_to_memory :
    stepOn (fun t => t.cell 130) 0x42825060 (mach [] [(131, 0xC0000000)] 192 128) = some 0xC0000000 := by decide
theorem test_mov_invalid_target :
    stepOn (fun t => (t.run, t.pc, t.conds)) 0x45030020 (mach [(.r 1, 1)] [] 192 128) =
      some (.halted .fault, 129, [⟨.invalidWriteTarget (imm 3), 128⟩]) := by decide
theorem test_push :
    stepOn (fun t => (t.cell 192, t.tsp)) 0x48010000 (mach [(.r 1, 7)] [] 192 128) = some (7, 193) := by decide
theorem test_push_past_memory :
    stepOn (fun t => (t.run, t.tsp, t.conds)) 0x48010000 (mach [(.r 1, 7)] [] 256 128) =
      some (.halted .fault, 256, [⟨.outOfRange 256, 128⟩]) := by decide
theorem test_pop :
    stepOn (fun t => (t.reg 2, t.tsp, t.cell 192)) 0x50020000 (mach [] [(192, 7)] 193 128) = some (.word 7, 192, 7) := by decide
theorem test_pop_invalid_target_has_popped :
    stepOn (fun t => (t.tsp, t.conds)) 0x55000000 (mach [] [(192, 7)] 193 128) =
      some (192, [⟨.invalidWriteTarget (imm 0), 128⟩]) := by decide
theorem test_jmp_direct_loads_the_cell :
    stepOn State.pc 0x82140000 (mach [] [(20, 150)] 192 129) = some 150 := by decide
theorem test_jmp_pop :
    stepOn (fun t => (t.pc, t.tsp)) 0x87000000 (mach [] [(192, 130)] 193 129) = some (130, 192) := by decide

/-- `PC` after the word with `CR` at -1, 0, +1, the instruction at 129 (section 3.5). -/
def jumpRow (w : Nat) : List (Option Word) :=
  [Comparison.less, .equal, .greater].map fun c => stepOn State.pc w (((two 0 0).setPc 129).setCr (.holds c))

theorem test_jeq : jumpRow 0x8D8C0000 = [some 130, some 140, some 130] := by decide
theorem test_jne : jumpRow 0x958C0000 = [some 140, some 130, some 140] := by decide
theorem test_jlt : jumpRow 0x9D8C0000 = [some 140, some 130, some 130] := by decide
theorem test_jle : jumpRow 0xA58C0000 = [some 140, some 140, some 130] := by decide
theorem test_jgt : jumpRow 0xAD8C0000 = [some 130, some 130, some 140] := by decide
theorem test_jge : jumpRow 0xB58C0000 = [some 130, some 140, some 140] := by decide
theorem test_jeq_without_comparison :
    stepOn (fun t => (t.pc, t.conds)) 0x8D820000 (State.reset.setPc 129) = some (130, [⟨.undefinedRegister .cr, 129⟩]) := by decide
/-- Section 3.5: a jump not taken leaves its operand unresolved; taken, `JLE pop` underflows. -/
theorem test_jle_pop :
    stepOn (fun t => (t.pc, t.conds)) 0xA7000000 (((two 0 0).setPc 129).setCr (.holds .greater)) = some (130, []) ∧
    stepOn State.conds 0xA7000000 (((two 0 0).setPc 129).setCr (.holds .equal)) = some [⟨.stackUnderflow 192, 129⟩] := by decide
theorem test_eop :
    stepOn (fun t => (t.run, t.pc, t.ir)) 0xC1234560 (State.reset.setPc 130) =
      some (.halted .eop, 131, .word 0xC1234560) := by decide
theorem test_func : stepOn (fun t => (t.run, t.pc)) 0xC8000000 State.reset = some (.halted .eop, 129) := by decide

/-! ## The host interface and the assembler: section 3.7 -/

theorem test_host_reads_only_when_halted :
    hostRead State.reset = none ∧ statusOutput State.reset = (.running, []) ∧
    (hostRead (State.reset.halt .eop)).isSome = true := by decide

/-- What the assembler emits for a text: its words and how many warnings. -/
def asm (text : List Char) : Except ParseError (List Word × Nat) :=
  (assemble .reference (tokenize text)).map fun x => (x.1, x.2.length)

theorem test_assemble_def : asm "DEF total 16\nMOV total, R1".toList = .ok ([0x42100020], 0) := by decide
theorem test_assemble_unresolved : asm "MOV x, #1".toList = .ok ([0x4200A020], 1) := by decide
theorem test_assemble_indirect_name : asm "DEF total 16\nMOV *total, #1".toList = .ok ([0x4310A020], 0) := by decide
theorem test_assemble_conditional_jump : asm "JLT R2, R3, #131\nJEQ #132".toList =
    .ok ([0x28020060, 0x9D830000, 0x8D840000], 0) := by decide
theorem test_assemble_comment : asm "MOV R1, #5 ; comment".toList = .ok ([0x4001A0A0], 0) := by decide
theorem test_assemble_zero_word : asm "ADD R0, R0".toList = .error .zeroWord := by decide
theorem test_assemble_range : asm "MOV R1, #256".toList = .error (.numberRange ['2', '5', '6']) := by decide
/-- R182: after the numbers comes "otherwise a name"; with a leading `-` only a number is refused. -/
theorem test_assemble_otherwise_a_name :
    asm "MOV -x, #1\nMOV a,b, #1".toList = .ok ([0x4200A020, 0x4200A020], 2) ∧
    asm "DEF -x 16\nMOV *-x, #1".toList = .ok ([0x4310A020], 0) := by decide
theorem test_assemble_negative :
    asm "MOV -1, #1".toList = .error (.numberRange ['-', '1']) ∧ asm "MOV R1, #-1".toList = .error (.numberRange ['-', '1']) ∧
    asm "MOV *-1, #1".toList = .error (.numberRange ['-', '1']) := by decide
/-- R181: empty and ill-formed entries; R180: a blank line of a text is no entry. -/
theorem test_assemble_ill_formed :
    assemble .reference [[['E', 'O', 'P']], []] = .error (.illFormed []) ∧ asm "MOV R1, #x".toList = .error (.illFormed ['x']) ∧
    asm "MOV R1, *".toList = .error (.illFormed []) ∧ asm "DEF R1 5".toList = .error (.illFormed ['R', '1']) ∧
    asm "EOP\n \n".toList = .ok ([0xC0000000], 0) := by decide
theorem test_assemble_count : asm "MOV R1".toList = .error (.operandCount ['M', 'O', 'V']) := by decide
theorem test_assemble_unknown : asm "NOP".toList = .error (.unknownMnemonic ['N', 'O', 'P']) := by decide

/-! ## Witnesses: for each statement with hypotheses, states and operands that meet them, clause by clause -/

/-- `MOV R1, #5` at 128 and at the window's last address 191. -/
def loaded (pc : Word) (w : Word) : State := mach [(.r 1, 7)] [(128, w), (191, w)] 192 pc

theorem witness_DecodeInvertsEncode : decode 0xC8FFFFE0 = .ok (.func ⟨.registerDirect, 255⟩ ⟨.stackPop, 255⟩) := by decide
theorem witness_RejectedWordsAreExactlyTheseOnes :
    (∃ e, decode 0x30000000 = .error e) ∧ (∃ e, decode 0x00000001 = .error e) ∧ ¬ ∃ e, decode 0xC8000000 = .error e :=
  ⟨⟨_, rfl⟩, ⟨_, rfl⟩, by rintro ⟨e, h⟩; exact absurd h (by rw [show decode 0xC8000000 = .ok (.func .missing .missing) by decide]; simp)⟩

theorem witness_StepRunsTheDecodedInstruction :
    ((loaded 191 0x4001A0A0).cfg.wf = true ∧ (loaded 191 0x4001A0A0).run = .running ∧ InWindow (loaded 191 0x4001A0A0)) ∧
    (loaded 191 0x4001A0A0).cell (loaded 191 0x4001A0A0).pc.toInt ≠ 0 ∧
    decode ((loaded 191 0x4001A0A0).cell (loaded 191 0x4001A0A0).pc.toInt) = .ok (.mov (r 1) (imm 5)) :=
  ⟨⟨by decide, by decide, by decide, by decide⟩, by decide, by decide⟩
theorem witness_StepHaltsOutsideTheWindow :
    ((loaded 127 0).run = .running ∧ ¬ InWindow (loaded 127 0)) ∧ ¬ InWindow (loaded 192 0) ∧ ¬ InWindow (loaded (-5) 0) :=
  ⟨⟨by decide, fun h => absurd h.1 (by decide)⟩, fun h => absurd h.2 (by decide), fun h => absurd h.1 (by decide)⟩
theorem witness_StepHaltsOnAZeroWord :
    State.reset.cfg.wf = true ∧ State.reset.run = .running ∧ InWindow State.reset ∧
    State.reset.cell State.reset.pc.toInt = 0 :=
  ⟨by decide, by decide, ⟨by decide, by decide⟩, by decide⟩
theorem witness_StepRaisesDecodeFailure :
    (loaded 191 1).cfg.wf = true ∧ (loaded 191 1).run = .running ∧ InWindow (loaded 191 1) ∧
    decode ((loaded 191 1).cell (loaded 191 1).pc.toInt) = .error (.reservedNotZero 1) :=
  ⟨by decide, by decide, ⟨by decide, by decide⟩, by decide⟩
theorem witness_HaltedBlockTakesNoStep : (State.reset.halt .fault).run = .halted .fault := by decide
theorem witness_RunningBlockAlwaysSteps : (loaded 128 0x4001A0A0).run = .running := by decide

/-- The premises of the two statements on the step, for the word `w` at 191. -/
theorem loaded_premises (w : Word) (h : decide ((loaded 191 w).cell (loaded 191 w).pc.toInt ≠ 0) = true) :
    (loaded 191 w).cfg.wf = true ∧ (loaded 191 w).run = .running ∧ InWindow (loaded 191 w) ∧
    (loaded 191 w).cell (loaded 191 w).pc.toInt ≠ 0 :=
  ⟨rfl, rfl, ⟨show (128 : Int) ≤ (191 : Word).toInt by decide, show (191 : Word).toInt < (128 : Int) + (64 : Nat) by decide⟩,
    of_decide_eq_true h⟩
theorem witness_ProgramCounterAdvancesFirst :
    (∃ t, step (loaded 191 0x80010000) = .next t ∧ (takesJump (.jmp (r 1) .missing) (executing (loaded 191 0x80010000)) = true ∧
      readFault (r 1) (executing (loaded 191 0x80010000)) = none)) ∧
    (∃ t, step (loaded 191 0x4001A0A0) = .next t ∧ takesJump (.mov (r 1) (imm 5)) (executing (loaded 191 0x4001A0A0)) = false) ∧
    (∃ t, step (loaded 191 0x80020000) = .next t ∧ t.run = .halted .fault) ∧
    (∃ t, step (loaded 191 0xC0000000) = .next t ∧ t.run = .halted .eop) := by
  refine ⟨?_, ?_, of_nx (by decide), of_nx (by decide)⟩
  · obtain ⟨t, h, -⟩ := of_nx (f := State.pc) (o := step (loaded 191 0x80010000)) (a := 7) (by decide)
    exact ⟨t, h, by decide, by decide⟩
  · obtain ⟨t, h, -⟩ := of_nx (f := State.pc) (o := step (loaded 191 0x4001A0A0)) (a := 192) (by decide)
    exact ⟨t, h, by decide⟩
theorem witness_HaltsForExactlyTheseCauses :
    (∃ t, step (loaded 192 0) = .next t ∧ t.run = .halted .windowExit) ∧
    (∃ t, step (loaded 191 0) = .next t ∧ t.run = .halted .zeroWord) ∧
    (∃ t, step (loaded 191 0xC8000000) = .next t ∧ t.run = .halted .eop) ∧
    (∃ t, step (loaded 191 0x58000000) = .next t ∧ t.run = .halted .fault) ∧
    (∃ t, step (loaded 191 0x4001A0A0) = .next t ∧ t.run = .running) :=
  ⟨of_nx (by decide), of_nx (by decide), of_nx (by decide), of_nx (by decide), of_nx (by decide)⟩

/-- An image at every bound of a configuration with eight registers: the window full, the last address, the last register. -/
def image : LoadImage := ⟨[1, 2], [(255, 9), (0, 8)], [(.r 7, 5), (.i1, 40), (.br, 6), (.i2, 4)]⟩
def tight : Config := { small with pcOrigin := 254, iwinSize := 2, stackBase := 256 }
def tightReset : State := State.resetFor tight

theorem witness_StartedBlockMeetsTheInvariant : tightReset.cfg.wf = true ∧ image.wf tightReset.cfg = true := by decide
theorem witness_LoadImageIsPlaced :
    tightReset.cfg.wf = true ∧ ((0 < image.program.length) ∧ ∀ p ∈ image.initMem, p.1 ≠ tightReset.cfg.pcOrigin + 0) ∧
    (image.initMem = [] ++ (255, 9) :: [(0, 8)] ∧ ∀ p ∈ [((0 : Nat), (8 : Word))], p.1 ≠ 255) ∧
    ((∀ p ∈ image.initMem, p.1 ≠ 253) ∧ (253 < tightReset.cfg.pcOrigin)) ∧
    (image.initRegs = [] ++ (.r 7, 5) :: image.initRegs.tail ∧ ∀ p ∈ image.initRegs.tail, p.1 ≠ PresetReg.r 7) ∧
    (∀ p ∈ image.initRegs, p.1 ≠ PresetReg.r 0) := by decide
theorem witness_EveryStepKeepsTheInvariant :
    (loaded 128 0x4001A0A0).Inv ∧ ∃ t, step (loaded 128 0x4001A0A0) = .next t ∧ t.reg 1 = .word 5 :=
  ⟨inv_of rfl (by decide) (by decide) rfl (by decide) rfl rfl, of_nx (by decide)⟩

theorem witness_MemoryReadIsRangeChecked :
    ((-1 : Int) < 0 ∧ vec32.cfg.memSize ≤ (256 : Int)) ∧ (0 : Int) ≤ 0 ∧ (255 : Int) < vec32.cfg.memSize := by decide
theorem witness_MemoryWriteChangesOneWord :
    ((-1 : Int) < 0 ∧ vec32.cfg.memSize ≤ (256 : Int)) ∧ (0 : Int) ≤ 255 ∧ (255 : Int) < vec32.cfg.memSize ∧
    (0 : Int) ≤ 254 ∧ (254 : Int) ≠ 255 := by decide
theorem witness_CanonicalMemoriesAreEqualWhenTheyReadAlike :
    Memory.wf vec32.mem = true ∧ Memory.wf ((vec32.mem.write 0 1).write 0 0) = true ∧
    ∀ a, vec32.mem.read a = ((vec32.mem.write 0 1).write 0 0).read a := by
  refine ⟨by decide, by decide, fun a => ?_⟩
  rw [show (vec32.mem.write 0 1).write 0 0 = vec32.mem by decide]
theorem witness_RegisterAccessIsChecked :
    tightReset.cfg.nregs ≤ (8 : AddrField).toNat ∧ tightReset.reg 7 = .undef ∧
    ((3 : AddrField).toNat < vec32.cfg.nregs ∧ vec32.reg 3 = .word 9) ∧ (7 : AddrField).toNat < tightReset.cfg.nregs ∧
    (4 : AddrField) ≠ 3 := by decide

theorem witness_ReadFollowsTheModeTable :
    stackPop vec32 = .ok (6, vec32.setTsp 193) ∧
    readReg 7 vec32 = .error (.undefinedRegister (.r 7)) ∧ readReg 9 vec32 = .ok (-1) ∧
    memRead ((8 : AddrField).toNat) { vec32 with cfg := { vec32.cfg with memSize := 8 } } = .error (.outOfRange 8) ∧
    memRead ((11 : AddrField).toNat) vec32 = .ok 300 ∧ (two 1 1).i1 = .undef ∧ vec32.i1 = .word 40 ∧
    (vec32.setTsp 192).tsp.toInt ≤ vec32.spr.toInt ∧
    (vec32.spr.toInt < (vec32.setTsp 193).tsp.toInt ∧ (0 : Int) ≤ (vec32.setTsp 193).tsp.toInt - 1 ∧
      (vec32.setTsp 256).tsp.toInt - 1 < vec32.cfg.memSize) :=
  ⟨stackPop_ok.2 ⟨by decide, by decide, by decide, rfl⟩, by decide⟩
theorem witness_LiteralAndPushModeReads :
    (vec32.cfg.memSize : Int) ≤ (vec32.setTsp 256).tsp.toInt ∧ (vec32.setTsp (-1)).tsp.toInt < 0 ∧
    (0 : Int) ≤ (vec32.setTsp 255).tsp.toInt ∧ (vec32.setTsp 255).tsp.toInt < vec32.cfg.memSize := by decide
theorem witness_ReadingMeetsItsContract :
    readFault (ind 8) vec32 = some (.outOfRange 256) ∧ readFault psh (vec32.setTsp 255) = none := by decide
theorem witness_WriteFollowsTheModeTable :
    writeReg 255 1 vec32 = .ok (vec32.setReg 255 (.word 1)) ∧ readReg 7 vec32 = .error (.undefinedRegister (.r 7)) ∧
    readReg 8 vec32 = .ok 256 ∧
    memRead ((8 : AddrField).toNat) { vec32 with cfg := { vec32.cfg with memSize := 8 } } = .error (.outOfRange 8) ∧
    memRead ((10 : AddrField).toNat) vec32 = .ok 20 ∧
    ((0 : Int) ≤ (vec32.setTsp 0).tsp.toInt ∧ (vec32.setTsp 255).tsp.toInt < vec32.cfg.memSize) ∧
    (vec32.setTsp 256).tsp.toInt = vec32.cfg.memSize :=
  ⟨writeReg_ok.2 ⟨by decide, rfl⟩, by decide⟩
theorem witness_InvalidTargetsRaise : Mode.stackPop ∈ [Mode.indexed, .immediate, .stackPop] := by decide
theorem witness_WritingMeetsItsContract :
    writeFault pp vec32 = some (.invalidWriteTarget pp) ∧ writeFault psh (vec32.setTsp 255) = none := by decide
theorem witness_PushThenPopRestores :
    (mach [] [] 255 129).Inv ∧ (mach [] [] 255 129).tsp.toInt < (mach [] [] 255 129).cfg.memSize :=
  ⟨inv_of rfl (by decide) (by decide) rfl (by decide) rfl rfl, by decide⟩
theorem witness_AutoAdjustFetchesThenSteps : readReg 4 vec32 = .ok 20 ∧ memRead (20 : Word).toInt vec32 = .ok 99 := by decide

theorem witness_LogGrowsByAtMostTwoRecords :
    (two 2147483647 1).run = .running ∧
    (∃ t, exec (.add (r 1) (r 2)) (two 2147483647 1) = .next t ∧ t.run = .running) ∧
    ∃ t, exec (.div (imm 1) (imm 0)) (two 0 0) = .next t ∧ t.run = .halted .fault :=
  ⟨by decide, of_nx (by decide), of_nx (by decide)⟩
theorem witness_FaultingInstructionWritesNothing :
    (two 0 0).run = .running ∧ ∃ t, exec (.div (imm 1) (imm 0)) (two 0 0) = .next t ∧ t.run = .halted .fault :=
  ⟨by decide, of_nx (by decide)⟩

/-- The three conditions `ArithmeticRuns` asks about: of the first read, of the second, of the write. -/
def arithHyps (op : State → Int → Int → Int) (extra : Operand → Int → List Condition) (o1 o2 : Operand) (s : State) :
    Option Condition × Option Condition × Option Condition :=
  let s1 := afterRead o1 s
  let b := (readValue o2 s1).toInt
  (readFault o1 s, readFault o2 s1,
    writeFault o1 (appendConds (extra o2 b ++ overflowConds o1 (op s (readValue o1 s).toInt b)) (afterRead o2 s1)))

/-- One witness for each of the four clauses of `ArithmeticRuns`. -/
def ArithWitnessed (op : State → Int → Int → Int) (extra : Operand → Int → List Condition) : Prop :=
  (∃ x, arithHyps op extra (r 7) (r 3) vec32 = (some (.undefinedRegister (.r 7)), x)) ∧
  (∃ x, arithHyps op extra (r 3) (ind 8) vec32 = (none, some (.outOfRange 256), x)) ∧
  arithHyps op extra pp pp vec32 = (none, none, some (.invalidWriteTarget pp)) ∧
  arithHyps op extra psh (r 9) (vec32.setTsp 254) = (none, none, none) ∧
  arithHyps op extra (r 255) (imm 0) (vec32.setReg 255 (.word 0x80000000)) = (none, none, none)

theorem witness_AddComputesTheSum : ArithWitnessed (fun _ a b => a + b) fun _ _ => [] :=
  ⟨⟨_, rfl⟩, ⟨_, rfl⟩, by decide, by decide, by decide⟩
theorem witness_SubComputesTheDifference : ArithWitnessed (fun _ a b => a - b) fun _ _ => [] :=
  ⟨⟨_, rfl⟩, ⟨_, rfl⟩, by decide, by decide, by decide⟩
theorem witness_MulComputesTheProduct : ArithWitnessed (fun _ a b => a * b) fun _ _ => [] :=
  ⟨⟨_, rfl⟩, ⟨_, rfl⟩, by decide, by decide, by decide⟩
theorem witness_DivComputesTheQuotient :
    ArithWitnessed (fun s a b => if b = 0 then 0 else quotient s a b)
      fun o2 b => if b = 0 then [.divisionByZero o2] else [] :=
  ⟨⟨_, rfl⟩, ⟨_, rfl⟩, by decide, by decide, by decide⟩
theorem witness_ModComputesTheRemainder :
    ArithWitnessed (fun s a b => if b = 0 then 0 else a - quotient s a b * b)
      fun o2 b => if b = 0 then [.divisionByZero o2] else [] :=
  ⟨⟨_, rfl⟩, ⟨_, rfl⟩, by decide, by decide, by decide⟩
theorem witness_CmpSetsTheSignOfTheDifference :
    readFault (r 7) vec32 = some (.undefinedRegister (.r 7)) ∧
    (readFault (r 3) vec32 = none ∧ readFault (ind 8) (afterRead (r 3) vec32) = some (.outOfRange 256)) ∧
    readFault pp vec32 = none ∧ readFault pp (afterRead pp vec32) = none := by decide
theorem witness_ExactUnlessOverflowIsRecorded :
    (two 2147483646 1).run = .running ∧
    ∃ t, exec (.add (r 1) (r 2)) (two 2147483646 1) = .next t ∧ (t.run, t.conds) = (.running, (two 2147483646 1).conds) :=
  ⟨by decide, of_nx (f := fun t => (t.run, t.conds)) (by decide)⟩
theorem witness_DivisionLaws :
    (-2 : Int) ≠ 0 ∧ (0 : Int) < 2 ∧ (-2 : Int) < 0 ∧ (Int.sign (-7) = Int.sign (-2)) ∧ ((5 : Int) ∣ 0) :=
  ⟨by decide, by decide, by decide, by decide, ⟨0, rfl⟩⟩
theorem witness_DivOverflowsOnlyAtTheMinimum :
    (∃ t, exec (.mod (r 1) (r 2)) (two 0x80000000 (-1)) = .next t ∧ t.conds = (two 0x80000000 (-1)).conds ++ []) ∧
    ∃ t, exec (.div (r 1) (r 2)) (two 0x80000000 (-1)) = .next t ∧
      t.conds = (two 0x80000000 (-1)).conds ++ [⟨.overflow (r 1), 128⟩] :=
  ⟨of_nx (by decide), of_nx (by decide)⟩

theorem witness_MovCopiesTheOperand :
    readFault (ind 9) vec32 = some (.outOfRange (-1)) ∧
    (readFault pp vec32 = none ∧ writeFault (imm 3) (afterRead pp vec32) = some (.invalidWriteTarget (imm 3))) ∧
    (readFault (r 8) vec32 = none ∧ writeFault (dir 255) (afterRead (r 8) vec32) = none) ∧
    (mach [] [] 193 129).spr.toInt < (mach [] [] 193 129).tsp.toInt := by decide
theorem witness_MovCopiesTheOperand_stack : (mach [] [] 193 129).Inv :=
  inv_of rfl (by decide) (by decide) rfl (by decide) rfl rfl
theorem witness_PushStoresTheOperand :
    readFault (r 7) vec32 = some (.undefinedRegister (.r 7)) ∧
    (readFault (r 3) (vec32.setTsp 256) = none ∧
      (vec32.cfg.memSize : Int) ≤ (afterRead (r 3) (vec32.setTsp 256)).tsp.toInt) ∧
    (readFault (r 3) (vec32.setTsp 255) = none ∧ (0 : Int) ≤ (afterRead (r 3) (vec32.setTsp 255)).tsp.toInt ∧
      (afterRead (r 3) (vec32.setTsp 255)).tsp.toInt < vec32.cfg.memSize) := by decide
theorem witness_PopWritesTheTop :
    (vec32.setTsp 192).tsp.toInt ≤ vec32.spr.toInt ∧
    (vec32.spr.toInt < (vec32.setTsp 257).tsp.toInt ∧ (vec32.cfg.memSize : Int) ≤ (vec32.setTsp 257).tsp.toInt - 1) ∧
    (vec32.spr.toInt < (vec32.setTsp 193).tsp.toInt ∧ (vec32.setTsp 256).tsp.toInt - 1 < vec32.cfg.memSize) ∧
    writeFault (imm 0) (vec32.setTsp 192) = some (.invalidWriteTarget (imm 0)) ∧
    writeFault (r 255) (vec32.setTsp 255) = none := by decide

theorem witness_JmpLoadsTheTarget :
    readFault pp (vec32.setTsp 192) = some (.stackUnderflow 192) ∧ readFault pp (vec32.setTsp 193) = none := by decide
/-- For each conditional jump: no comparison, not taken, taken with an operand that raises, taken with one that does not. -/
theorem witness_ConditionalJumpsFollowTheComparison :
    ∀ p ∈ [((Instr.jeq : Operand → Operand → Instr), Comparison.equal, Comparison.less), (.jne, .less, .equal),
      (.jlt, .less, .equal), (.jle, .equal, .greater), (.jgt, .greater, .equal), (.jge, .equal, .less)],
    (p.1 pp .missing).isConditionalJump = true ∧ vec32.cr = .undef ∧
    takesJump (p.1 pp .missing) (vec32.setCr (.holds p.2.2)) = false ∧ (vec32.setCr (.holds p.2.2)).cr ≠ .undef ∧
    (takesJump (p.1 pp .missing) (vec32.setCr (.holds p.2.1)) = true ∧
      readFault (p.1 pp .missing).op1 ((vec32.setCr (.holds p.2.1)).setTsp 192) = some (.stackUnderflow 192)) ∧
    readFault (p.1 pp .missing).op1 (vec32.setCr (.holds p.2.1)) = none := by decide
theorem witness_EopHaltsTheBlock :
    decode ((loaded 191 0xC1234560).cell (loaded 191 0xC1234560).pc.toInt) = .ok (.eop (ind 0x23) ⟨.direct, 0x2B⟩) ∧
    InWindow (loaded 191 0xC1234560) ∧ (0xC000001F : Word).toNat / 2 ^ 27 = 0x18 ∧ (0xC000001F : Word).toNat % 32 ≠ 0 :=
  ⟨by decide, ⟨by decide, by decide⟩, by decide, by decide⟩
theorem witness_FuncHaltsTheBlock :
    decode ((loaded 191 0xC8000000).cell (loaded 191 0xC8000000).pc.toInt) = .ok (.func .missing .missing) ∧
    InWindow (loaded 191 0xC8000000) ∧ (0xC8000001 : Word).toNat / 2 ^ 27 = 0x19 ∧ (0xC8000001 : Word).toNat % 32 ≠ 0 :=
  ⟨by decide, ⟨by decide, by decide⟩, by decide, by decide⟩

/-! Frames: a form that stores and a form that does not; the address outside the stored word meets the premise. -/

theorem witness_ArithmeticFrame :
    (∃ t, exec (.add psh (imm 1)) vec32 = .next t ∧ (t.cell 195, t.cell 194, t.tsp) = (0x56, 0x55, 196)) ∧
    (writeTarget psh (vec32.setTsp 195)).map (fun g => g.address (vec32.setTsp 195)) = .ok (some 195) ∧
    ∃ t, exec (.mod (r 3) (r 4)) vec32 = .next t ∧ t.reg 3 = .word 9 :=
  ⟨of_nx (f := fun t => (t.cell 195, t.cell 194, t.tsp)) (by decide), by decide, of_nx (by decide)⟩
theorem witness_MovFrame :
    (∃ t, exec (.mov (ptr 10) pp) vec32 = .next t ∧ (t.cell 20, t.cell 10, t.tsp) = (6, 20, 193)) ∧
    (writeTarget (ptr 10) (vec32.setTsp 193)).map (fun g => g.address (vec32.setTsp 193)) = .ok (some 20) :=
  ⟨of_nx (f := fun t => (t.cell 20, t.cell 10, t.tsp)) (by decide), by decide⟩
/-- An empty stack, a pop from outside memory, and a pop that succeeds, into a word and back onto the stack. -/
theorem witness_PopFrame :
    (∃ t, exec (.pop (r 1) .missing) (vec32.setTsp 192) = .next t ∧ t.tsp = 192) ∧
    (vec32.setTsp 192).tsp.toInt ≤ vec32.spr.toInt ∧
    (∃ t, exec (.pop (r 1) .missing) (vec32.setTsp 257) = .next t ∧ t.tsp = 257) ∧
    (vec32.cfg.memSize : Int) ≤ (vec32.setTsp 257).tsp.toInt - 1 ∧
    (∃ t, exec (.pop (dir 255) .missing) vec32 = .next t ∧ (t.cell 255, t.cell 193, t.tsp) = (6, 6, 193)) ∧
    (∃ t, exec (.pop psh .missing) (vec32.setTsp 193) = .next t ∧ (t.cell 192, t.tsp) = (5, 193)) ∧
    vec32.spr.toInt < (vec32.setTsp 193).tsp.toInt ∧ (vec32.setTsp 256).tsp.toInt - 1 < vec32.cfg.memSize :=
  ⟨of_nx (by decide), by decide, of_nx (by decide), by decide, of_nx (f := fun t => (t.cell 255, t.cell 193, t.tsp)) (by decide),
    of_nx (f := fun t => (t.cell 192, t.tsp)) (by decide), by decide, by decide⟩
theorem witness_PushFrame : ∃ t, exec (.push psh .missing) vec32 = .next t ∧ (t.cell 194, t.cell 195, t.tsp) = (85, 85, 196) :=
  of_nx (f := fun t => (t.cell 194, t.cell 195, t.tsp)) (by decide)
theorem witness_CmpFrame : ∃ t, exec (.cmp (imm 2) (imm 1)) vec32 = .next t ∧ t.cr = .holds .greater := of_nx (by decide)
theorem witness_JumpFrame :
    (Instr.jge pp .missing).isJump = true ∧
    ∃ t, exec (.jge pp .missing) (vec32.setCr (.holds .equal)) = .next t ∧ (t.pc, t.tsp) = (6, 193) :=
  ⟨by decide, of_nx (f := fun t => (t.pc, t.tsp)) (by decide)⟩
theorem witness_OnlyTheNamedInstructionsWrite :
    (∃ t, exec (.jmp (imm 9) .missing) vec32 = .next t ∧ t.pc = 9) ∧ (Instr.jmp (imm 9) .missing).writesOp1 = false ∧
    (Instr.mov (r 1) (r 1)).isJump = false :=
  ⟨of_nx (by decide), by decide, by decide⟩
theorem witness_DefinedRegistersStayDefined :
    (∃ t, step (loaded 191 0x28010020) = .next t ∧ t.cr = .holds .equal) ∧ (loaded 191 0x28010020).reg 1 ≠ .undef ∧
    (vec32.setCr (.holds .less)).cr ≠ .undef ∧ (vec32.setIr (.word 0)).ir ≠ .undef :=
  ⟨of_nx (by decide), by decide, by decide, by decide⟩
theorem witness_InertRegistersInfluenceNothing :
    (∃ t, exec (.add (r 3) (r 4)) vec32 = .next t ∧ t.reg 3 = .word 29) ∧
    ∃ t, step (loaded 191 0x4001A0A0) = .next t ∧ t.reg 1 = .word 5 :=
  ⟨of_nx (by decide), of_nx (by decide)⟩
theorem witness_LogInfluencesNothing : ∃ t, step (loaded 191 0x80020000) = .next t ∧ t.conds = [⟨.undefinedRegister (.r 2), 191⟩] :=
  of_nx (by decide)
theorem witness_UnusedOperandsHaveNoEffect :
    (.push : Operand → Operand → Instr) ∈ [Instr.push, .pop, .jmp, .jeq, .jne, .jlt, .jle, .jgt, .jge] ∧
    (.func : Operand → Operand → Instr) ∈ [Instr.eop, .func] := by simp
theorem witness_AssembledWordsAreExecutable :
    assemble .reference [[['M', 'O', 'V'], ['R', '1'], ['#', '5']], [['E', 'O', 'P']]] = .ok ([0x4001A0A0, 0xC0000000], []) := by
  decide
theorem witness_PseudoInstructionsExpand :
    Machine.isConditionalJump ['J', 'G', 'E'] = true ∧ isName ['t', 'o', 't'] = true ∧ parseField ['2', '5', '5'] = .ok 255 := by
  decide

end Sys2Proof.Tests
end

section
/-! The bounds of memory, and what `memRead` answers after `memWrite` (spec/20_memory.md). -/

namespace Sys2Proof.Machine

theorem State.inMemory_eq_false_iff {s : State} {a : Int} :
    s.inMemory a = false ↔ a < 0 ∨ s.cfg.memSize ≤ a := by
  rw [← Bool.not_eq_true, State.inMemory_iff, not_and_or, not_le, not_lt]

theorem memRead_memWrite_same {a : Int} {v : Word} {s t : State} (h : memWrite a v s = .ok t) :
    memRead a t = .ok v := by
  obtain ⟨hm, rfl⟩ := memWrite_ok.1 h
  exact memRead_ok.2 ⟨hm, (Memory.read_write_same ..).symm⟩

/-- The other address may lie beyond memory: a write moves no bound, so both reads then answer the same condition (R42). -/
theorem memRead_memWrite_other {a b : Int} {v : Word} {s t : State} (h : memWrite a v s = .ok t)
    (hb : 0 ≤ b) (hne : b ≠ a) : memRead b t = memRead b s := by
  obtain ⟨hm, rfl⟩ := memWrite_ok.1 h
  have ha : 0 ≤ a := (State.inMemory_iff.1 hm).1
  have hcell : b.toNat ≠ a.toNat := by omega
  have hmem : (s.setMem (s.mem.write a.toNat v)).inMemory b = s.inMemory b := State.inMemory_congr rfl b
  simp only [memRead, hmem, State.setMem_mem, Memory.read_write_other _ _ hcell]

/-- Settles O18, from the inversions of `memWrite` and the two laws of reading after a write. -/
theorem memoryWriteChangesOneWord : Obligations.MemoryWriteChangesOneWord := by
  unfold Obligations.MemoryWriteChangesOneWord
  intro s a v
  constructor
  · intro hout
    exact memWrite_error.2 ⟨State.inMemory_eq_false_iff.2 hout, rfl⟩
  · intro h0 hlt
    have hw : memWrite a v s = .ok (s.setMem (s.mem.write a.toNat v)) :=
      memWrite_ok.2 ⟨State.inMemory_iff.2 ⟨h0, hlt⟩, rfl⟩
    exact ⟨_, hw, memRead_memWrite_same hw, fun _ hb hne => memRead_memWrite_other hw hb hne, rfl⟩

end Sys2Proof.Machine
end

section
/-! The round trip of the decoder and the encoder (spec/30_encoding.md R72). -/

namespace Sys2Proof

open Sys2Proof.Laws

/-- The word's category and index are the two digits, in base 8, of its 5-bit opcode field (R63). -/
theorem catField_idxField_toNat (w : Word) : (catField w).toNat * 8 + (idxField w).toNat = w.toNat / 134217728 := by
  have hw := w.isLt
  rw [catField_toNat, idxField_toNat]
  omega

/-- The fields of R62 cover the word: no bit lies outside them. -/
theorem toNat_eq_sum_fields (w : Word) :
    w.toNat = ((catField w).toNat * 8 + (idxField w).toNat) * 134217728 + (mode1Field w).toNat * 16777216 +
      (addr1Field w).toNat * 65536 + (mode2Field w).toNat * 8192 + (addr2Field w).toNat * 32 + (rsvdField w).toNat := by
  rw [catField_idxField_toNat, mode1Field_toNat, addr1Field_toNat, mode2Field_toNat, addr2Field_toNat, rsvdField_toNat]
  omega

@[simp] theorem operand1_encode (i : Instr) : operand1 (encode i) = i.op1 := by
  obtain ⟨-, hmode, haddr, -, -, -⟩ := opcodeField_all i
  rw [operand1, hmode, haddr, modeOfTag_modeTag]

@[simp] theorem operand2_encode (i : Instr) : operand2 (encode i) = i.op2 := by
  obtain ⟨-, -, -, hmode, haddr, -⟩ := opcodeField_all i
  rw [operand2, hmode, haddr, modeOfTag_modeTag]

@[simp] theorem decode_encode (i : Instr) : decode (encode i) = .ok i := by
  obtain ⟨hop, -, -, -, -, hrsvd⟩ := opcodeField_all i
  obtain ⟨mk, hrow, hmk⟩ := opcodeTable_opcode i _ _ ((catField_idxField_toNat (encode i)).trans hop)
  rw [decode_of_row hrow hrsvd, operand1_encode, operand2_encode, hmk]

/-- The row the decoder chose fixes the opcode, and the reserved field is zero, so the encoder's sum is the word's own
sum of fields. -/
theorem encode_of_decode {w : Word} {i : Instr} (h : decode w = .ok i) : encode i = w := by
  obtain ⟨mk, hrow, hrsvd, rfl⟩ := decode_ok_iff.1 h
  obtain ⟨hop, h1, h2⟩ := opcodeTable_some hrow (operand1 w) (operand2 w)
  apply BitVec.eq_of_toNat_eq
  rw [encode_toNat, hop, h1, h2, toNat_eq_sum_fields w, hrsvd]
  simp [operand1, operand2]

/-- Settles O1: the formula is the value of the built word, and each direction of the round trip compares the word's
fields with the encoder's sum. -/
theorem decodeInvertsEncode : Obligations.DecodeInvertsEncode := by
  unfold Obligations.DecodeInvertsEncode
  exact ⟨encode_toNat, decode_encode, fun _ _ => encode_of_decode, rfl⟩

end Sys2Proof
end

section
/-! Why the block halts (spec/40_cycle.md R88): how each step leaves the run state, `PC` and the log. -/

namespace Sys2Proof.Machine

open Sys2Proof.Claims

/-! ## The window -/

theorem State.inWindow_iff {s : State} : s.inWindow = true ↔ InWindow s := by
  simp [State.inWindow, InWindow, Config.iwinEnd]

/-- A legal window lies inside memory, so a fetch that passes the window check cannot fail (R7, R82). -/
theorem inMemory_of_inWindow {s : State} (hcfg : s.cfg.wf = true) (hw : InWindow s) : s.inMemory s.pc.toInt = true := by
  obtain ⟨-, -, -, hwin, -⟩ := Config.wf_iff.1 hcfg
  obtain ⟨hlo, hhi⟩ := hw
  exact State.inMemory_iff.2 (by omega)

/-! ## The words that end a program -/

/-- The word at `PC` is an EOP or a FUNC: the two instructions that resolve no operand. -/
def FetchesEnd (s : State) : Prop := ∃ i, decode (s.cell s.pc.toInt) = .ok i ∧ i.usesOp1 = false

theorem usesOp1_eq_false_iff {i : Instr} : i.usesOp1 = false ↔ ∃ o1 o2, i = .eop o1 o2 ∨ i = .func o1 o2 := by
  cases i <;> simp [Instr.usesOp1]

theorem fetchesEnd_iff {s : State} : FetchesEnd s ↔ ∃ o1 o2,
    decode (s.cell s.pc.toInt) = .ok (.eop o1 o2) ∨ decode (s.cell s.pc.toInt) = .ok (.func o1 o2) := by
  simp only [FetchesEnd, usesOp1_eq_false_iff]
  constructor
  · rintro ⟨i, hd, o1, o2, rfl | rfl⟩
    · exact ⟨o1, o2, .inl hd⟩
    · exact ⟨o1, o2, .inr hd⟩
  · rintro ⟨o1, o2, hd | hd⟩
    · exact ⟨_, hd, o1, o2, .inl rfl⟩
    · exact ⟨_, hd, o1, o2, .inr rfl⟩

/-- The decoder gives the zero word as `ADD R0, R0` (R70). -/
theorem not_fetchesEnd_of_zero {s : State} (hz : s.cell s.pc.toInt = 0) : ¬ FetchesEnd s := by
  rintro ⟨i, hd, hi⟩
  have hadd : decode 0 = .ok (.add .missing .missing) := by decide
  rw [hz, hadd, Except.ok.injEq] at hd
  subst hd
  cases hi

theorem exec_of_usesOp1_eq_false {i : Instr} (hi : i.usesOp1 = false) (s : State) : exec i s = .next (s.halt .eop) := by
  obtain ⟨o1, o2, rfl | rfl⟩ := usesOp1_eq_false_iff.1 hi <;> rfl

/-! ## The log -/

/-- The log has grown and its last record is of a fatal kind (the codes 3 to 7 of R201). -/
def AppendsFatal (s t : State) : Prop :=
  s.conds.length < t.conds.length ∧ ∃ r, t.conds.getLast? = some r ∧ r.cond.code ∈ [3, 4, 5, 6, 7]

theorem Condition.code_mem_iff_fatal {c : Condition} : c.code ∈ [3, 4, 5, 6, 7] ↔ c.fatal = true := by
  cases c <;> simp [Condition.code, Condition.fatal]

theorem appendsFatal_raise {s u : State} {rs : List CondRecord} {c : Condition} (h : u.conds = s.conds ++ rs)
    (hc : c.fatal = true) : AppendsFatal s (u.raise c) := by
  refine ⟨?_, ⟨c, u.instrAddr⟩, ?_, Condition.code_mem_iff_fatal.2 hc⟩ <;> simp [h]

theorem not_appendsFatal_of_conds {s t : State} {rs : List CondRecord} (h : t.conds = s.conds ++ rs)
    (hrs : ∀ r ∈ rs, r.cond.fatal = false) : ¬ AppendsFatal s t := by
  rintro ⟨hlen, r, hlast, hcode⟩
  have hne : rs ≠ [] := by
    rintro rfl
    simp [h] at hlen
  rw [h, List.getLast?_append_of_ne_nil _ hne] at hlast
  have hnonfatal := hrs r (List.mem_of_getLast? hlast)
  rw [Condition.code_mem_iff_fatal.1 hcode] at hnonfatal
  cases hnonfatal

theorem not_appendsFatal_of_conds_eq {s t : State} (h : t.conds = s.conds) : ¬ AppendsFatal s t :=
  not_appendsFatal_of_conds (rs := []) (by simpa using h) (by simp)

/-! ## Operand accesses and records -/

/-- An operand access moves no control state: `PC`, the run state and the log are as before. -/
def KeepsControl (s t : State) : Prop := t.pc = s.pc ∧ t.run = s.run ∧ t.conds = s.conds

theorem ReadStep.keepsControl {s t : State} (h : ReadStep s t) : KeepsControl s t := by
  rcases h with rfl | ⟨-, rfl⟩ | ⟨-, -, rfl⟩ <;> exact ⟨rfl, rfl, rfl⟩

theorem keepsControl_of_resolveWrite {o : Operand} {v : Word} {s t : State} (h : resolveWrite o v s = .ok t) :
    KeepsControl s t := by
  rcases resolveWrite_ok h with ⟨-, -, rfl⟩ | ⟨ea, -, -, rfl⟩ | ⟨-, -, -, rfl⟩ <;> exact ⟨rfl, rfl, rfl⟩

theorem keepsControl_of_stackPush {v : Word} {s t : State} (h : stackPush v s = .ok t) : KeepsControl s t := by
  obtain ⟨-, rfl⟩ := stackPush_ok.1 h
  exact ⟨rfl, rfl, rfl⟩

theorem Reported.appends_nonfatal {s t : State} (h : Reported s t) :
    t.pc = s.pc ∧ t.run = s.run ∧ ∃ rs, t.conds = s.conds ++ rs ∧ ∀ r ∈ rs, r.cond.fatal = false := by
  rcases h with rfl | ⟨c, hc, rfl⟩
  · exact ⟨rfl, rfl, [], by simp⟩
  · exact ⟨rfl, rfl, [⟨c, s.instrAddr⟩], rfl, by simp [hc]⟩

/-! ## One instruction -/

/-- An instruction that resolves an operand ends by taking a fatal condition, or with the run state and the log as its
reads and records left them. -/
theorem Ending.raised_or_keeps {i : Instr} {u t : State} (hi : i.usesOp1 = true) (h : Ending i u t) :
    (∃ c : Condition, c.fatal = true ∧ t = u.raise c) ∨ (t.run = u.run ∧ t.conds = u.conds) := by
  cases h with
  | raised c hc => exact .inl ⟨c, hc, rfl⟩
  | wrote _ v _ ht => exact .inr (keepsControl_of_resolveWrite ht).2
  | pushed o1 o2 _ v _ ht => exact .inr (keepsControl_of_stackPush ht).2
  | compared o1 o2 _ c => exact .inr ⟨rfl, rfl⟩
  | jumped _ v => exact .inr ⟨rfl, rfl⟩
  | fellThrough _ => exact .inr ⟨rfl, rfl⟩
  | ended hf => rw [hi] at hf; cases hf

theorem exec_faults_or_goesOn {i : Instr} {s t : State} (hi : i.usesOp1 = true) (h : exec i s = .next t) :
    (t.run = .halted .fault ∧ t.pc = s.pc ∧ AppendsFatal s t) ∨ (t.run = s.run ∧ ¬ AppendsFatal s t) := by
  obtain ⟨s1, s2, s3, h1, h2, h3, hend⟩ := exec_shape h
  obtain ⟨hpc1, hrun1, hconds1⟩ := h1.keepsControl
  obtain ⟨hpc2, hrun2, hconds2⟩ := h2.keepsControl
  obtain ⟨hpc3, hrun3, rs, hconds3, hrs⟩ := h3.appends_nonfatal
  rw [hconds2, hconds1] at hconds3
  rcases hend.raised_or_keeps hi with ⟨c, hc, rfl⟩ | ⟨hrun, hconds⟩
  · refine .inl ⟨rfl, ?_, appendsFatal_raise hconds3 hc⟩
    rw [State.raise_pc, hpc3, hpc2, hpc1]
  · refine .inr ⟨?_, not_appendsFatal_of_conds (hconds.trans hconds3) hrs⟩
    rw [hrun, hrun3, hrun2, hrun1]

/-! ## One step -/

/-- The five ways a running step of a legal configuration comes out: the four rows of R88, and going on running. -/
inductive StepOutcome (s t : State) : Prop where
  | leftWindow (hw : ¬ InWindow s) (hrun : t.run = .halted .windowExit) (hpc : t.pc = s.pc) (hconds : t.conds = s.conds)
  | zeroWord (hw : InWindow s) (hz : s.cell s.pc.toInt = 0) (hrun : t.run = .halted .zeroWord) (hpc : t.pc = s.pc)
      (hconds : t.conds = s.conds)
  | programEnd (hw : InWindow s) (hz : s.cell s.pc.toInt ≠ 0) (he : FetchesEnd s) (hrun : t.run = .halted .eop)
      (hpc : t.pc = s.pc + 1) (hconds : t.conds = s.conds)
  | faulted (hw : InWindow s) (hz : s.cell s.pc.toInt ≠ 0) (he : ¬ FetchesEnd s) (hrun : t.run = .halted .fault)
      (hpc : t.pc = s.pc + 1) (hf : AppendsFatal s t)
  | goesOn (hw : InWindow s) (hz : s.cell s.pc.toInt ≠ 0) (he : ¬ FetchesEnd s) (hrun : t.run = .running)
      (hf : ¬ AppendsFatal s t)

/-- The execution stage: EOP and FUNC halt, every other instruction faults or goes on (R87). -/
theorem stepOutcome_of_exec {s t : State} {i : Instr} (hs : s.run = .running) (hw : InWindow s)
    (hz : s.cell s.pc.toInt ≠ 0) (hd : decode (s.cell s.pc.toInt) = .ok i)
    (h : exec i (advancePc (latch (s.cell s.pc.toInt) s)) = .next t) : StepOutcome s t := by
  cases hi : i.usesOp1 with
  | false =>
    rw [exec_of_usesOp1_eq_false hi, Host.Outcome.next.injEq] at h
    subst h
    exact .programEnd hw hz ⟨i, hd, hi⟩ rfl rfl rfl
  | true =>
    have he : ¬ FetchesEnd s := by
      rintro ⟨j, hj, hfalse⟩
      rw [hd, Except.ok.injEq] at hj
      subst hj
      rw [hi] at hfalse
      cases hfalse
    rcases exec_faults_or_goesOn hi h with ⟨hrun, hpc, hf⟩ | ⟨hrun, hf⟩
    · exact .faulted hw hz he hrun hpc hf
    · exact .goesOn hw hz he (hrun.trans hs) hf

theorem stepOutcome_of_step {s t : State} (hcfg : s.cfg.wf = true) (h : step s = .next t) : StepOutcome s t := by
  obtain ⟨hs, ⟨hw, rfl⟩ | ⟨hw, hm, -⟩ | ⟨hw, -, hz, rfl⟩ | ⟨w, e, hw, -, rfl, hz, hd, rfl⟩ |
    ⟨w, i, hw, -, rfl, hz, hd, hexec⟩⟩ := step_cases h
  · exact .leftWindow (by rw [← State.inWindow_iff, hw]; decide) rfl rfl rfl
  · rw [inMemory_of_inWindow hcfg (State.inWindow_iff.1 hw)] at hm
    cases hm
  · exact .zeroWord (State.inWindow_iff.1 hw) hz rfl rfl rfl
  · refine .faulted (State.inWindow_iff.1 hw) hz ?_ rfl rfl (appendsFatal_raise (List.append_nil _).symm rfl)
    rintro ⟨i, hi, -⟩
    exact nomatch hd.symm.trans hi
  · exact stepOutcome_of_exec hs (State.inWindow_iff.1 hw) hz hd hexec

/-- Settles O11, by the outcome of the step: each of the five says which cause held and excludes the others. -/
theorem haltsForExactlyTheseCauses : Obligations.HaltsForExactlyTheseCauses := by
  unfold Obligations.HaltsForExactlyTheseCauses
  intro s t hcfg _ h
  rw [← fetchesEnd_iff]
  change _ ∧ _ ∧ _ ∧ (_ ↔ AppendsFatal s t) ∧ _
  cases stepOutcome_of_step hcfg h with
  | leftWindow hw hrun hpc hconds =>
    have hf := not_appendsFatal_of_conds_eq hconds
    simp [hw, hrun, hpc, hconds, hf]
  | zeroWord hw hz hrun hpc hconds =>
    have he := not_fetchesEnd_of_zero hz
    have hf := not_appendsFatal_of_conds_eq hconds
    simp [hw, hz, he, hrun, hpc, hconds, hf]
  | programEnd hw hz he hrun hpc hconds =>
    have hf := not_appendsFatal_of_conds_eq hconds
    simpa [hw, he, hrun, hpc, hconds, hf] using hz
  | faulted hw hz he hrun hpc hf => simpa [hw, he, hrun, hpc, hf] using hz
  | goesOn hw hz he hrun hf => simpa [hw, he, hrun, hf] using hz

end Sys2Proof.Machine
end

section
/-! What `resolveWrite` does in each mode that is a write target (spec/41_addressing.md R113 to R116, R119), and a push
whose slot is given by the bounds of memory. -/

namespace Sys2Proof.Machine

theorem resolveWrite_registerDirect (a : AddrField) (v : Word) (s : State) :
    resolveWrite ⟨.registerDirect, a⟩ v s = writeReg a v s := rfl

theorem resolveWrite_registerIndirect (a : AddrField) (v : Word) (s : State) :
    resolveWrite ⟨.registerIndirect, a⟩ v s = (readReg a s).bind fun x => memWrite x.toInt v s := by
  unfold resolveWrite writeTarget registerAddress
  cases readReg a s <;> rfl

theorem resolveWrite_direct (a : AddrField) (v : Word) (s : State) :
    resolveWrite ⟨.direct, a⟩ v s = memWrite a.toNat v s := rfl

theorem resolveWrite_indirect (a : AddrField) (v : Word) (s : State) :
    resolveWrite ⟨.indirect, a⟩ v s = (memRead a.toNat s).bind fun p => memWrite p.toInt v s := by
  unfold resolveWrite writeTarget pointerAddress zextAddr
  cases memRead a.toNat s <;> rfl

theorem resolveWrite_stackPush (a : AddrField) (v : Word) (s : State) :
    resolveWrite ⟨.stackPush, a⟩ v s = stackPush v s := rfl

theorem reg_of_writeReg {a : AddrField} {v : Word} {s t : State} (h : writeReg a v s = .ok t) : t.reg a = .word v := by
  obtain ⟨-, rfl⟩ := writeReg_ok.1 h
  exact State.setReg_reg_same s a _

/-- Both read the operand first and then store in the fresh slot (R150, R151). -/
theorem exec_mov_stackPush (a : AddrField) (o x : Operand) (s : State) :
    exec (.mov ⟨.stackPush, a⟩ o) s = exec (.push o x) s := by
  change execMov ⟨.stackPush, a⟩ o s = execPush o s
  simp only [execMov, execPush, resolveWrite_stackPush]

theorem stackPush_inside {v : Word} {s : State} (h0 : 0 ≤ s.tsp.toInt) (hlt : s.tsp.toInt < s.cfg.memSize) :
    stackPush v s = .ok { s with mem := s.mem.write s.tsp.toInt.toNat v, tsp := s.tsp + 1 } :=
  stackPush_ok.2 ⟨State.inMemory_iff.2 ⟨h0, hlt⟩, rfl⟩

theorem stackPush_outside {v : Word} {s : State} (h : s.tsp.toInt < 0 ∨ s.cfg.memSize ≤ s.tsp.toInt) :
    stackPush v s = .error (.outOfRange s.tsp.toInt) :=
  stackPush_error.2 ⟨State.inMemory_eq_false_iff.2 h, rfl⟩

/-- Settles O24, from the equation of `resolveWrite` in each mode and the two answers of `stackPush`. -/
theorem writeFollowsTheModeTable : Obligations.WriteFollowsTheModeTable := by
  unfold Obligations.WriteFollowsTheModeTable
  intro s a v
  refine ⟨resolveWrite_registerDirect a v s, fun t ht => reg_of_writeReg ht, ?_, ?_, resolveWrite_direct a v s, ?_, ?_,
    resolveWrite_stackPush a v s, fun o x => exec_mov_stackPush a o x s, stackPush_inside,
    fun hend => stackPush_outside (.inr hend.ge)⟩
  · intro c hc
    rw [resolveWrite_registerIndirect, hc]; rfl
  · intro x hx
    rw [resolveWrite_registerIndirect, hx]; rfl
  · intro c hc
    rw [resolveWrite_indirect, hc]; rfl
  · intro p hp
    rw [resolveWrite_indirect, hp]; rfl

end Sys2Proof.Machine
end

section
/-! The resolver's reads and writes in the terms of Safety.lean's contract (spec/41_addressing.md R123): an access
answers its condition, or its value and the state after. -/

namespace Sys2Proof.Machine

/-- The answer of an access: its condition if there is one, else `a`. -/
def answer {α : Type} (fault : Option Condition) (a : α) : Except Condition α :=
  match fault with
  | none => .ok a
  | some c => .error c

@[simp] theorem answer_none {α : Type} (a : α) : answer none a = .ok a := rfl

@[simp] theorem answer_some {α : Type} (c : Condition) (a : α) : answer (some c) a = .error c := rfl

@[simp] theorem answer_map {α β : Type} (fault : Option Condition) (a : α) (f : α → β) :
    (answer fault a).map f = answer fault (f a) := by
  cases fault <;> rfl

/-- Two accesses in a row raise the first condition either of them has. -/
theorem answer_bind {α β : Type} (fault fault' : Option Condition) (a : α) (b : β) {f : α → Except Condition β}
    (hf : f a = answer fault' b) : (answer fault a).bind f = answer (fault.or fault') b := by
  cases fault with
  | none => exact hf
  | some c => rfl

/-! ## The primitives -/

theorem cellFault_of_inMemory {a : Int} {s : State} (h : s.inMemory a = true) : cellFault a s = none :=
  if_pos (State.inMemory_iff.1 h)

theorem cellFault_of_not_inMemory {a : Int} {s : State} (h : s.inMemory a = false) :
    cellFault a s = some (.outOfRange a) :=
  if_neg fun hin => absurd (State.inMemory_iff.2 hin) (by simp [h])

theorem memRead_eq_answer (a : Int) (s : State) : memRead a s = answer (cellFault a s) (s.cell a) := by
  cases hm : s.inMemory a with
  | true => rw [cellFault_of_inMemory hm]; exact memRead_ok.2 ⟨hm, rfl⟩
  | false => rw [cellFault_of_not_inMemory hm]; exact memRead_error.2 ⟨hm, rfl⟩

theorem memWrite_eq_answer (a : Int) (v : Word) (s : State) :
    memWrite a v s = answer (cellFault a s) (s.setMem (s.mem.write a.toNat v)) := by
  cases hm : s.inMemory a with
  | true => rw [cellFault_of_inMemory hm]; exact memWrite_ok.2 ⟨hm, rfl⟩
  | false => rw [cellFault_of_not_inMemory hm]; exact memWrite_error.2 ⟨hm, rfl⟩

theorem readReg_eq_answer (i : AddrField) (s : State) : readReg i s = answer (regFault i s) (s.reg i).value := by
  unfold readReg regFault State.hasReg
  by_cases hi : i.toNat < s.cfg.nregs
  · cases hr : s.reg i <;> simp [hi, Reg.get, Reg.value]
  · simp [hi]

theorem writeReg_eq_answer (i : AddrField) (v : Word) (s : State) :
    writeReg i v s =
      answer (if i.toNat < s.cfg.nregs then none else some (.undefinedRegister (.r i))) (s.setReg i (.word v)) := by
  unfold writeReg State.hasReg
  by_cases hi : i.toNat < s.cfg.nregs <;> simp [hi]

theorem stackPop_eq_answer (s : State) :
    stackPop s =
      answer (if s.tsp.toInt ≤ s.spr.toInt then some (.stackUnderflow s.tsp) else cellFault (s.tsp.toInt - 1) s)
        (s.cell (s.tsp.toInt - 1), s.setTsp (s.tsp - 1)) := by
  unfold stackPop
  split
  · rfl
  · rw [memRead_eq_answer, answer_map]

theorem stackPush_eq_answer (v : Word) (s : State) :
    stackPush v s =
      answer (cellFault s.tsp.toInt s) ((s.setMem (s.mem.write s.tsp.toInt.toNat v)).setTsp (s.tsp + 1)) := by
  rw [stackPush, memWrite_eq_answer, answer_map]; rfl

/-! ## The modes -/

/-- A memory mode forms its address, then loads from it. -/
theorem loadFrom_answer (fault : Option Condition) (ea : Int) (s : State) :
    loadFrom (answer fault ea) s = answer (fault.or (cellFault ea s)) (s.cell ea, s) :=
  answer_bind _ _ _ _ (by rw [memRead_eq_answer, answer_map])

theorem registerAddress_eq_answer (a : AddrField) (s : State) :
    registerAddress a s = answer (regFault a s) (s.reg a).value.toInt := by
  rw [registerAddress, readReg_eq_answer, answer_map]

theorem pointerAddress_eq_answer (a : AddrField) (s : State) :
    pointerAddress a s = answer (cellFault a.toNat s) (s.cell a.toNat).toInt := by
  rw [pointerAddress, memRead_eq_answer, answer_map]; rfl

theorem indexedAddress_eq_answer (a : AddrField) (s : State) :
    indexedAddress a s =
      answer (if s.i1 = .undef then some (.undefinedRegister .i1) else none) (s.i1.value.toInt + a.toInt) := by
  unfold indexedAddress
  cases hi : s.i1 <;> rfl

/-- What a read answers in each of the eight modes (R105 to R112). -/
theorem resolveRead_eq_answer (o : Operand) (s : State) :
    resolveRead o s = answer (readFault o s) (readValue o s, afterRead o s) := by
  obtain ⟨m, a⟩ := o
  cases m with
  | registerDirect =>
    change (readReg a s).map _ = _
    rw [readReg_eq_answer, answer_map]; rfl
  | registerIndirect =>
    change loadFrom (registerAddress a s) s = _
    rw [registerAddress_eq_answer, loadFrom_answer]; rfl
  | direct => exact loadFrom_answer none _ s
  | indirect =>
    change loadFrom (pointerAddress a s) s = _
    rw [pointerAddress_eq_answer, loadFrom_answer]; rfl
  | indexed =>
    change loadFrom (indexedAddress a s) s = _
    rw [indexedAddress_eq_answer, loadFrom_answer]
    unfold readFault
    by_cases hi : s.i1 = .undef <;> simp only [hi, ↓reduceIte] <;> rfl
  | immediate =>
    change Except.ok (literal a, s) = Except.ok (BitVec.ofNat 32 a.toNat, s)
    rw [BitVec.ofNat_toNat, literal]
  | stackPush =>
    change (memRead s.tsp.toInt s).map _ = _
    rw [memRead_eq_answer, answer_map]; rfl
  | stackPop => exact stackPop_eq_answer s

/-- What a write answers in each of the eight modes (R113 to R120). -/
theorem resolveWrite_eq_answer (o : Operand) (v : Word) (s : State) :
    resolveWrite o v s = answer (writeFault o s) (afterWrite o v s) := by
  obtain ⟨m, a⟩ := o
  cases m with
  | registerDirect => exact writeReg_eq_answer a v s
  | registerIndirect =>
    rw [resolveWrite_registerIndirect, readReg_eq_answer]
    exact answer_bind _ _ _ _ (memWrite_eq_answer _ v s)
  | direct => exact memWrite_eq_answer a.toNat v s
  | indirect =>
    rw [resolveWrite_indirect, memRead_eq_answer]
    exact answer_bind _ _ _ _ (memWrite_eq_answer _ v s)
  | stackPush => exact stackPush_eq_answer v s
  | indexed => rfl
  | immediate => rfl
  | stackPop => rfl

/-! ## An instruction's access, by the contract -/

theorem attempt_resolveRead_of_fault {o : Operand} {s : State} {c : Condition} (h : readFault o s = some c)
    (k : Word × State → Out) : s.attempt (resolveRead o s) k = .next (s.raise c) := by
  rw [resolveRead_eq_answer, h, answer_some, State.attempt_error]

theorem attempt_resolveRead_of_none {o : Operand} {s : State} (h : readFault o s = none) (k : Word × State → Out) :
    s.attempt (resolveRead o s) k = k (readValue o s, afterRead o s) := by
  rw [resolveRead_eq_answer, h, answer_none, State.attempt_ok]

theorem attempt_resolveWrite_of_fault {o : Operand} {s : State} {c : Condition} (h : writeFault o s = some c) (v : Word)
    (k : State → Out) : s.attempt (resolveWrite o v s) k = .next (s.raise c) := by
  rw [resolveWrite_eq_answer, h, answer_some, State.attempt_error]

theorem attempt_resolveWrite_of_none {o : Operand} {s : State} (h : writeFault o s = none) (v : Word)
    (k : State → Out) : s.attempt (resolveWrite o v s) k = k (afterWrite o v s) := by
  rw [resolveWrite_eq_answer, h, answer_none, State.attempt_ok]

end Sys2Proof.Machine
end

section
/-! MOV, PUSH and POP (spec/43_data_movement.md) in the terms of the operand contract. -/

namespace Sys2Proof.Machine

open Sys2Proof.Claims

theorem hasOpcode_of_opcode {mk : Operand → Operand → Instr} {op : Nat} (h : ∀ o1 o2, (mk o1 o2).opcode = op) :
    HasOpcode mk op := by
  intro o1 o2
  obtain ⟨hop, -⟩ := Laws.opcodeField_all (mk o1 o2)
  exact hop.trans (h o1 o2)

/-! ## Writing back what is there -/

theorem Memory.read_of_lt {lo a : Nat} {m : Memory} (hm : Memory.wfFrom lo m = true) (ha : a < lo) :
    m.read a = Memory.unlisted := by
  induction m generalizing lo with
  | nil => rfl
  | cons p rest ih =>
    obtain ⟨b, w⟩ := p
    obtain ⟨hlo, -, hrest⟩ := Memory.wfFrom_cons.1 hm
    rw [Memory.read, if_neg (by omega)]
    exact ih hrest (by omega)

theorem Memory.erase_of_unlisted {lo a : Nat} {m : Memory} (hm : Memory.wfFrom lo m = true)
    (ha : m.read a = Memory.unlisted) : m.erase a = m := by
  induction m generalizing lo with
  | nil => rfl
  | cons p rest ih =>
    obtain ⟨b, w⟩ := p
    obtain ⟨-, hw, hrest⟩ := Memory.wfFrom_cons.1 hm
    unfold Memory.read at ha
    unfold Memory.erase
    split at ha
    · exact absurd ha hw
    · rw [if_neg ‹_›, ih hrest ha]

theorem Memory.put_read {lo a : Nat} {m : Memory} (hm : Memory.wfFrom lo m = true)
    (ha : m.read a ≠ Memory.unlisted) : m.put a (m.read a) = m := by
  induction m generalizing lo with
  | nil => exact absurd rfl ha
  | cons p rest ih =>
    obtain ⟨b, w⟩ := p
    obtain ⟨-, hw, hrest⟩ := Memory.wfFrom_cons.1 hm
    obtain hlt | rfl | hgt := lt_trichotomy a b
    · have hfrom : Memory.wfFrom b ((b, w) :: rest) = true := Memory.wfFrom_cons.2 ⟨le_rfl, hw, hrest⟩
      exact absurd (Memory.read_of_lt hfrom hlt) ha
    · simp [Memory.put, Memory.read]
    · have hne : b ≠ a := hgt.ne
      rw [Memory.read, if_neg hne] at ha ⊢
      rw [Memory.put, if_neg hgt.asymm, if_neg hne.symm, ih hrest ha]

/-- A canonical memory has one form, so writing a word back into its own place changes nothing. -/
theorem Memory.write_read {m : Memory} (hm : m.wf = true) (a : Nat) : m.write a (m.read a) = m := by
  unfold Memory.write
  split
  · exact Memory.erase_of_unlisted hm ‹_›
  · exact Memory.put_read hm ‹_›

/-! ## A pop and the push that undoes it -/

/-- `TSP - 1` does not wrap (R15). -/
theorem toInt_sub_one {w : Word} (h : 0 ≤ w.toInt - 1) : (w - 1).toInt = w.toInt - 1 := by
  have hlt := BitVec.toInt_lt (x := w)
  rw [BitVec.toInt_sub]
  exact Int.bmod_eq_of_le (by simp; omega) (by simp; omega)

/-- Under the invariant a word on the stack lies inside memory. -/
theorem stackPop_of_inv {s : State} (hinv : s.Inv) (hpop : s.spr.toInt < s.tsp.toInt) :
    stackPop s = .ok (s.cell (s.tsp.toInt - 1), s.setTsp (s.tsp - 1)) := by
  have hbase := hinv.sprBase
  have htop := hinv.stackTop
  exact stackPop_ok.2 ⟨hpop, State.inMemory_iff.2 (by omega), rfl, rfl⟩

/-- The word goes back into the slot it came from, and `TSP` to where it was. -/
theorem stackPush_of_stackPop {s t : State} {v : Word} (hmem : s.mem.wf = true) (h : stackPop s = .ok (v, t)) :
    stackPush v t = .ok s := by
  obtain ⟨-, hm, rfl, rfl⟩ := stackPop_ok.1 h
  have hslot : (s.tsp - 1).toInt = s.tsp.toInt - 1 := toInt_sub_one (State.inMemory_iff.1 hm).1
  refine stackPush_ok.2 ⟨?_, ?_⟩ <;> simp only [State.setTsp_tsp, State.setTsp_mem, hslot]
  · exact hm
  · rw [Memory.write_read hmem, sub_add_cancel]; rfl

/-! ## The three instructions

Each answer of a read or a pop leads to the rest of the instruction; `exec` unfolds to the chain of its accesses. -/

theorem exec_mov_of_read {o1 o2 : Operand} {s : State} (hr : readFault o2 s = none) :
    exec (.mov o1 o2) s = (afterRead o2 s).attempt (resolveWrite o1 (readValue o2 s) (afterRead o2 s)) .next :=
  attempt_resolveRead_of_none hr _

theorem exec_push_of_read {o1 o2 : Operand} {s : State} (hr : readFault o1 s = none) :
    exec (.push o1 o2) s = (afterRead o1 s).attempt (stackPush (readValue o1 s) (afterRead o1 s)) .next :=
  attempt_resolveRead_of_none hr _

theorem exec_pop_of_error {o1 o2 : Operand} {s : State} {c : Condition} (h : stackPop s = .error c) :
    exec (.pop o1 o2) s = .next (s.raise c) := by
  change s.attempt (stackPop s) _ = _
  rw [h, State.attempt_error]

theorem exec_pop_of_ok {o1 o2 : Operand} {s t : State} {v : Word} (h : stackPop s = .ok (v, t)) :
    exec (.pop o1 o2) s = t.attempt (resolveWrite o1 v t) .next := by
  change s.attempt (stackPop s) _ = _
  rw [h, State.attempt_ok]

/-- Both pop the stack and then write operand 1 (R150, R152). -/
theorem exec_mov_stackPop (o x : Operand) (a : AddrField) (s : State) :
    exec (.mov o ⟨.stackPop, a⟩) s = exec (.pop o x) s := rfl

theorem exec_mov_stackPush_stackPop (a b : AddrField) {s : State} (hinv : s.Inv) (hpop : s.spr.toInt < s.tsp.toInt) :
    exec (.mov ⟨.stackPush, a⟩ ⟨.stackPop, b⟩) s = .next s := by
  have hpopped := stackPop_of_inv hinv hpop
  rw [exec_mov_stackPop _ .missing, exec_pop_of_ok hpopped, resolveWrite_stackPush,
    stackPush_of_stackPop hinv.mem hpopped, State.attempt_ok]

/-- Settles O41: the answers of the read, then of the write in the state after it; a pop and the push of its word
restore the state. -/
theorem movCopiesTheOperand : Obligations.MovCopiesTheOperand := by
  unfold Obligations.MovCopiesTheOperand
  refine ⟨hasOpcode_of_opcode fun _ _ => rfl, fun o1 o2 s => ⟨?_, ?_, ?_⟩, exec_mov_stackPush,
    fun a o x s => exec_mov_stackPop o x a s, fun a b s => exec_mov_stackPush_stackPop a b⟩
  · intro c hc
    exact attempt_resolveRead_of_fault hc _
  · intro hr c hc
    exact (exec_mov_of_read hr).trans (attempt_resolveWrite_of_fault hc _ _)
  · intro hr hw
    exact (exec_mov_of_read hr).trans (attempt_resolveWrite_of_none hw _ _)

/-- Settles O42: the answers of the read, then the two answers of `stackPush` by the bounds of memory. -/
theorem pushStoresTheOperand : Obligations.PushStoresTheOperand := by
  unfold Obligations.PushStoresTheOperand
  refine ⟨hasOpcode_of_opcode fun _ _ => rfl, fun o1 o2 s => ⟨?_, ?_, ?_⟩⟩
  · intro c hc
    exact attempt_resolveRead_of_fault hc _
  · intro hr hout
    rw [exec_push_of_read hr, stackPush_outside hout, State.attempt_error]
  · intro hr h0 hlt
    rw [exec_push_of_read hr, stackPush_inside h0 hlt, State.attempt_ok]

/-- Settles O43: the three answers of `stackPop`, then those of the write in the state the pop left. -/
theorem popWritesTheTop : Obligations.PopWritesTheTop := by
  unfold Obligations.PopWritesTheTop
  refine ⟨hasOpcode_of_opcode fun _ _ => rfl, fun o1 o2 s => ⟨?_, ?_, ?_⟩⟩
  · intro hempty
    exact exec_pop_of_error (stackPop_error.2 (.inl ⟨hempty, rfl⟩))
  · intro hpop hout
    exact exec_pop_of_error (stackPop_error.2 (.inr ⟨hpop, State.inMemory_eq_false_iff.2 hout, rfl⟩))
  · intro hpop h0 hlt
    have hpopped := stackPop_ok.2 ⟨hpop, State.inMemory_iff.2 ⟨h0, hlt⟩, rfl, rfl⟩
    constructor
    · intro c hc
      exact (exec_pop_of_ok hpopped).trans (attempt_resolveWrite_of_fault hc _ _)
    · intro hw
      exact (exec_pop_of_ok hpopped).trans (attempt_resolveWrite_of_none hw _ _)

end Sys2Proof.Machine
end

section
/-! The end of a program (spec/45_program_control.md): a step on an instruction that resolves no operand, and the
reserved field. -/

namespace Sys2Proof.Machine

open Sys2Proof.Claims

/-- The rejection of R69, in the word's own number; an unassigned opcode is rejected as well (R68). -/
theorem decode_error_of_reserved {w : Word} (h : w.toNat % 32 ≠ 0) : ∃ e, decode w = .error e := by
  refine decode_error_iff.2 (.inr fun hrsvd => h ?_)
  rw [← rsvdField_toNat, hrsvd]
  rfl

/-- Inside the window every stage before execution succeeds on a non-zero word that decodes (R80). -/
theorem step_eq_exec {s : State} {i : Instr} (hcfg : s.cfg.wf = true) (hrun : s.run = .running) (hw : InWindow s)
    (hz : s.cell s.pc.toInt ≠ 0) (hd : decode (s.cell s.pc.toInt) = .ok i) : step s = exec i (executing s) := by
  have hread : memRead s.pc.toInt s = .ok (s.cell s.pc.toInt) := memRead_ok.2 ⟨inMemory_of_inWindow hcfg hw, rfl⟩
  have hfetch : fetch s = .execute i (executing s) := by
    simp only [fetch, State.inWindow_iff.2 hw, hread, if_neg hz, decodeStage, hd, ↓reduceIte]
    rfl
  simp only [step, hrun, hfetch]

/-- The word of a program's end is not zero, so the fetch unit lets it through to execution (R84, R175, R176). -/
theorem step_of_usesOp1_eq_false {s : State} {i : Instr} (hcfg : s.cfg.wf = true) (hrun : s.run = .running)
    (hw : InWindow s) (hd : decode (s.cell s.pc.toInt) = .ok i) (hi : i.usesOp1 = false) :
    step s = .next { executing s with run := .halted .eop } := by
  have hz : s.cell s.pc.toInt ≠ 0 := fun hzero => not_fetchesEnd_of_zero hzero ⟨i, hd, hi⟩
  rw [step_eq_exec hcfg hrun hw hz hd, exec_of_usesOp1_eq_false hi]
  rfl

/-- Settles O46: the meaning looks at no operand, the step reaches it with `PC` advanced and `IR` latched, and a
reserved bit alone rejects the word. -/
theorem eopHaltsTheBlock : Obligations.EopHaltsTheBlock := by
  unfold Obligations.EopHaltsTheBlock
  refine ⟨hasOpcode_of_opcode fun _ _ => rfl, rfl, ?_, ?_, ?_⟩
  · intro o1 o2 s
    exact exec_of_usesOp1_eq_false rfl s
  · intro o1 o2 s hcfg hrun hw hd
    exact step_of_usesOp1_eq_false hcfg hrun hw hd rfl
  · intro w _ hrsvd
    exact decode_error_of_reserved hrsvd

end Sys2Proof.Machine
end

section
/-! The machine's invariant (spec/10_state.md sections 1 and 3; spec/60_exceptions.md R210, R211): what each field update
asks for to keep it, and that every step does. -/

namespace Sys2Proof.Machine

/-- `TSP + 1` does not wrap below the largest signed word (R15). -/
theorem toInt_add_one {w : Word} (h : w.toInt < 2147483647) : (w + 1).toInt = w.toInt + 1 := by
  have hle := BitVec.le_toInt w
  rw [BitVec.toInt_add]
  exact Int.bmod_eq_of_le (by simp; omega) (by simp; omega)

/-! ## The log -/

theorem State.logMatchesRun_of_running {s : State} (hrun : s.run = .running) :
    s.logMatchesRun ↔ ∀ x ∈ s.conds, x.cond.fatal = false := by
  simp only [State.logMatchesRun, hrun]

theorem State.logMatchesRun_halt {s : State} {r : HaltReason} (hr : r ≠ .fault)
    (hlog : ∀ x ∈ s.conds, x.cond.fatal = false) : (s.halt r).logMatchesRun := by
  cases r with
  | fault => exact absurd rfl hr
  | eop => exact hlog
  | zeroWord => exact hlog
  | windowExit => exact hlog

/-! ## The updates -/

/-- The invariant speaks of the parameters, memory, `SPR`, `TSP`, the registers, and the log beside the run state. -/
theorem State.Inv.congr {s t : State} (h : s.Inv) (hcfg : t.cfg = s.cfg) (hmem : t.mem = s.mem) (hspr : t.spr = s.spr)
    (htsp : t.tsp = s.tsp) (hregs : t.regs = s.regs) (hlog : t.logMatchesRun) : t.Inv where
  cfg := hcfg ▸ h.cfg
  mem := hmem ▸ h.mem
  memBound := by rw [hmem, hcfg]; exact h.memBound
  sprBase := by rw [hspr, hcfg]; exact h.sprBase
  stackOrder := by rw [hspr, htsp]; exact h.stackOrder
  stackTop := by rw [htsp, hcfg]; exact h.stackTop
  absentRegs := by simpa only [State.reg, hregs, hcfg] using h.absentRegs
  log := hlog

theorem State.Inv.setTsp {s : State} {v : Word} (h : s.Inv) (hlo : s.spr.toInt ≤ v.toInt)
    (hhi : v.toInt ≤ s.cfg.memSize) : (s.setTsp v).Inv :=
  ⟨h.cfg, h.mem, h.memBound, h.sprBase, hlo, hhi, h.absentRegs, h.log⟩

theorem State.Inv.setMem_write {s : State} {a : Int} {v : Word} (h : s.Inv) (ha : s.inMemory a = true) :
    (s.setMem (s.mem.write a.toNat v)).Inv := by
  refine ⟨h.cfg, Memory.wf_write _ _ _ h.mem, ?_, h.sprBase, h.stackOrder, h.stackTop, h.absentRegs, h.log⟩
  intro p hp
  rcases Memory.mem_write hp with hold | hnew
  · exact h.memBound p hold
  · obtain ⟨h0, hlt⟩ := State.inMemory_iff.1 ha
    rw [State.setMem_cfg]
    omega

theorem State.Inv.setReg {s : State} {i : AddrField} {r : Reg} (h : s.Inv) (hi : s.hasReg i = true) :
    (s.setReg i r).Inv := by
  refine ⟨h.cfg, h.mem, h.memBound, h.sprBase, h.stackOrder, h.stackTop, ?_, h.log⟩
  intro j hj
  have hlt := State.hasReg_iff.1 hi
  rw [State.setReg_cfg] at hj
  have hne : i ≠ j := by
    rintro rfl
    omega
  rw [State.setReg_reg_other s r hne]
  exact h.absentRegs j hj

/-- `TSP + 1` is at most MEM_SIZE when the slot at `TSP` is inside memory. -/
theorem State.Inv.advanceTsp {s : State} (h : s.Inv) (hm : s.inMemory s.tsp.toInt = true) :
    (s.setTsp (s.tsp + 1)).Inv := by
  obtain ⟨h0, hlt⟩ := State.inMemory_iff.1 hm
  obtain ⟨-, hsize, -⟩ := Config.wf_iff.1 h.cfg
  have hadd : (s.tsp + 1).toInt = s.tsp.toInt + 1 := toInt_add_one (by omega)
  have horder := h.stackOrder
  exact h.setTsp (by omega) (by omega)

/-- `TSP - 1` is at least `SPR` when the stack is not empty. -/
theorem State.Inv.retreatTsp {s : State} (h : s.Inv) (hpop : s.spr.toInt < s.tsp.toInt) :
    (s.setTsp (s.tsp - 1)).Inv := by
  have hbase := h.sprBase
  have htop := h.stackTop
  have hsub : (s.tsp - 1).toInt = s.tsp.toInt - 1 := toInt_sub_one (by omega)
  exact h.setTsp (by omega) (by omega)

theorem State.Inv.conds_nonfatal {s : State} (h : s.Inv) (hrun : s.run = .running) :
    ∀ x ∈ s.conds, x.cond.fatal = false :=
  (State.logMatchesRun_of_running hrun).1 h.log

theorem State.Inv.halt {s : State} {r : HaltReason} (h : s.Inv) (hrun : s.run = .running) (hr : r ≠ .fault) :
    (s.halt r).Inv :=
  h.congr rfl rfl rfl rfl rfl (State.logMatchesRun_halt hr (h.conds_nonfatal hrun))

theorem State.Inv.raiseAt {s : State} {a : Int} {c : Condition} (h : s.Inv) (hrun : s.run = .running)
    (hc : c.fatal = true) : (s.raiseAt a c).Inv :=
  h.congr rfl rfl rfl rfl rfl ⟨s.conds, ⟨c, a⟩, rfl, hc, h.conds_nonfatal hrun⟩

theorem State.Inv.report {s : State} {c : Condition} (h : s.Inv) (hrun : s.run = .running) (hc : c.fatal = false) :
    (s.report c).Inv := by
  refine h.congr rfl rfl rfl rfl rfl ((State.logMatchesRun_of_running (s := s.report c) hrun).2 ?_)
  intro x hx
  rw [State.report_conds, List.mem_append, List.mem_singleton] at hx
  rcases hx with hold | rfl
  · exact h.conds_nonfatal hrun x hold
  · exact hc

/-! ## The parts of an instruction -/

theorem ReadStep.inv {s t : State} (h : ReadStep s t) (hinv : s.Inv) : t.Inv := by
  rcases h with rfl | ⟨hm, rfl⟩ | ⟨hpop, -, rfl⟩
  · exact hinv
  · exact hinv.advanceTsp hm
  · exact hinv.retreatTsp hpop

theorem Reported.inv {s t : State} (h : Reported s t) (hrun : s.run = .running) (hinv : s.Inv) : t.Inv := by
  rcases h with rfl | ⟨c, hc, rfl⟩
  · exact hinv
  · exact hinv.report hrun hc

theorem inv_of_stackPush {v : Word} {s t : State} (h : stackPush v s = .ok t) (hinv : s.Inv) : t.Inv := by
  obtain ⟨hm, rfl⟩ := stackPush_ok.1 h
  exact (hinv.setMem_write hm).advanceTsp hm

theorem inv_of_resolveWrite {o : Operand} {v : Word} {s t : State} (h : resolveWrite o v s = .ok t) (hinv : s.Inv) :
    t.Inv := by
  rcases resolveWrite_ok h with ⟨-, hr, rfl⟩ | ⟨ea, -, hm, rfl⟩ | ⟨-, -, hm, rfl⟩
  · exact hinv.setReg hr
  · exact hinv.setMem_write hm
  · exact (hinv.setMem_write hm).advanceTsp hm

theorem Ending.inv {i : Instr} {u t : State} (h : Ending i u t) (hrun : u.run = .running) (hinv : u.Inv) : t.Inv := by
  cases h with
  | raised c hc => exact hinv.raiseAt hrun hc
  | wrote _ v _ ht => exact inv_of_resolveWrite ht hinv
  | pushed o1 o2 _ v _ ht => exact inv_of_stackPush ht hinv
  | compared o1 o2 _ c => exact hinv.congr rfl rfl rfl rfl rfl hinv.log
  | jumped _ v => exact hinv.congr rfl rfl rfl rfl rfl hinv.log
  | fellThrough _ => exact hinv
  | ended _ => exact hinv.halt hrun (by decide)

theorem inv_of_exec {i : Instr} {s t : State} (h : exec i s = .next t) (hrun : s.run = .running) (hinv : s.Inv) :
    t.Inv := by
  obtain ⟨s1, s2, s3, h1, h2, h3, hend⟩ := exec_shape h
  obtain ⟨-, hrun1, -⟩ := h1.keepsControl
  obtain ⟨-, hrun2, -⟩ := h2.keepsControl
  obtain ⟨-, hrun3, -⟩ := h3.appends_nonfatal
  have hs2 : s2.run = .running := (hrun2.trans hrun1).trans hrun
  exact hend.inv (hrun3.trans hs2) (h3.inv hs2 (h2.inv (h1.inv hinv)))

/-- Settles O15: each way a step can end keeps the invariant, an instruction's by its reads, its record and its ending. -/
theorem everyStepKeepsTheInvariant : Obligations.EveryStepKeepsTheInvariant := by
  unfold Obligations.EveryStepKeepsTheInvariant
  intro s t hinv h
  have hlatch (w : Word) : (latch w s).Inv := hinv.congr rfl rfl rfl rfl rfl hinv.log
  have hadvance (w : Word) : (advancePc (latch w s)).Inv := hinv.congr rfl rfl rfl rfl rfl hinv.log
  obtain ⟨hrun, ⟨-, rfl⟩ | ⟨-, -, rfl⟩ | ⟨-, -, -, rfl⟩ | ⟨w, e, -, -, -, -, -, rfl⟩ | ⟨w, i, -, -, -, -, -, hexec⟩⟩ :=
    step_cases h
  · exact hinv.halt hrun (by decide)
  · exact hinv.raiseAt hrun rfl
  · exact (hlatch 0).halt hrun (by decide)
  · exact (hadvance w).raiseAt hrun rfl
  · exact inv_of_exec hexec hrun (hadvance w)

end Sys2Proof.Machine
end

section
/-! The words that are no instruction (spec/30_encoding.md R68, R69), and words the spec writes out. -/

namespace Sys2Proof

/-- The holes of the opcode map, by the numbers of the two fields (R68). -/
theorem opcodeTable_eq_none_iff (cat : BitVec 2) (idx : BitVec 3) : opcodeTable cat idx = none ↔
    (cat.toNat, idx.toNat) ∈
      [(0, 6), (0, 7), (1, 3), (1, 4), (1, 5), (1, 6), (1, 7), (2, 7),
        (3, 2), (3, 3), (3, 4), (3, 5), (3, 6), (3, 7)] := by
  rw [← Option.isNone_iff_eq_none]
  revert cat idx
  decide

theorem catField_eq_div (w : Word) : (catField w).toNat = w.toNat / 1073741824 := by
  have hw := w.isLt
  rw [catField_toNat]
  omega

theorem rsvdField_ne_zero_iff (w : Word) : rsvdField w ≠ 0 ↔ w.toNat % 32 ≠ 0 := by
  rw [← rsvdField_toNat, Ne, BitVec.toNat_eq]
  rfl

/-- Settles O3: the decoder rejects for the table's holes and for the reserved field, each read off the word's number. -/
theorem rejectedWordsAreExactlyTheseOnes : Obligations.RejectedWordsAreExactlyTheseOnes := by
  unfold Obligations.RejectedWordsAreExactlyTheseOnes
  intro w
  rw [decode_error_iff, opcodeTable_eq_none_iff, rsvdField_ne_zero_iff, catField_eq_div, idxField_toNat]
  rfl

/-- Settles O2, by decoding the nineteen words. -/
theorem writtenWordsDecode : Obligations.WrittenWordsDecode := by
  unfold Obligations.WrittenWordsDecode
  decide

end Sys2Proof
end

section
/-! Memory and register access, the resolver's reads, and taking a condition (spec/20_memory.md R41; spec/41_addressing.md;
spec/60_exceptions.md R200, R211). -/

namespace Sys2Proof.Machine

/-! ## Memory -/

theorem memRead_outside {s : State} {a : Int} (h : a < 0 ∨ s.cfg.memSize ≤ a) : memRead a s = .error (.outOfRange a) :=
  memRead_error.2 ⟨State.inMemory_eq_false_iff.2 h, rfl⟩

theorem memRead_inside {s : State} {a : Int} (h0 : 0 ≤ a) (hlt : a < s.cfg.memSize) : memRead a s = .ok (s.cell a) :=
  memRead_ok.2 ⟨State.inMemory_iff.2 ⟨h0, hlt⟩, rfl⟩

/-- Settles O17, from the two answers of `memRead`. -/
theorem memoryReadIsRangeChecked : Obligations.MemoryReadIsRangeChecked := by
  unfold Obligations.MemoryReadIsRangeChecked
  exact fun s a => ⟨memRead_outside, memRead_inside⟩

/-- At the address of its head a canonical list reads otherwise than every list that starts above it. -/
theorem Memory.read_head_ne {b lo : Nat} {w : Word} {rest m : Memory} (hw : w ≠ Memory.unlisted)
    (hm : Memory.wfFrom lo m = true) (hlt : b < lo) : Memory.read ((b, w) :: rest) b ≠ m.read b := by
  rw [Memory.read_of_lt hm hlt, Memory.read, if_pos rfl]
  exact hw

/-- Both lists start at the smallest address that does not read as unlisted, with the word there; what follows reads
alike above that address and as unlisted below. -/
theorem Memory.eq_of_read_eq {lo : Nat} {m m' : Memory} (hm : Memory.wfFrom lo m = true)
    (hm' : Memory.wfFrom lo m' = true) (h : ∀ a, m.read a = m'.read a) : m = m' := by
  induction m generalizing lo m' with
  | nil =>
    cases m' with
    | nil => rfl
    | cons p' rest' =>
      obtain ⟨-, hw', -⟩ := Memory.wfFrom_cons.1 hm'
      exact absurd (h p'.1).symm (Memory.read_head_ne (lo := p'.1 + 1) hw' rfl (by omega))
  | cons p rest ih =>
    obtain ⟨b, w⟩ := p
    obtain ⟨-, hw, hrest⟩ := Memory.wfFrom_cons.1 hm
    cases m' with
    | nil => exact absurd (h b) (Memory.read_head_ne (lo := b + 1) hw rfl (by omega))
    | cons p' rest' =>
      obtain ⟨b', w'⟩ := p'
      obtain ⟨-, hw', hrest'⟩ := Memory.wfFrom_cons.1 hm'
      obtain hlt | rfl | hgt := lt_trichotomy b b'
      · exact absurd (h b) (Memory.read_head_ne hw (Memory.wfFrom_cons.2 ⟨le_rfl, hw', hrest'⟩) hlt)
      · have hhead : w = w' := by simpa [Memory.read] using h b
        have htail : rest = rest' := by
          refine ih hrest hrest' fun a => ?_
          by_cases hb : b = a
          · rw [Memory.read_of_lt hrest (by omega), Memory.read_of_lt hrest' (by omega)]
          · simpa [Memory.read, hb] using h a
        rw [hhead, htail]
      · exact absurd (h b').symm (Memory.read_head_ne hw' (Memory.wfFrom_cons.2 ⟨le_rfl, hw, hrest⟩) hgt)

/-- Settles O19, by induction on the two lists from their smallest addresses. -/
theorem canonicalMemoriesAreEqualWhenTheyReadAlike : Obligations.CanonicalMemoriesAreEqualWhenTheyReadAlike := by
  unfold Obligations.CanonicalMemoriesAreEqualWhenTheyReadAlike
  exact fun _ _ => Memory.eq_of_read_eq

/-! ## Registers -/

theorem State.hasReg_eq_false_iff {s : State} {i : AddrField} : s.hasReg i = false ↔ s.cfg.nregs ≤ i.toNat := by
  rw [← Bool.not_eq_true, State.hasReg_iff, not_lt]

/-- Settles O20, from the inversions of `readReg` and `writeReg` and the registers' read after write. -/
theorem registerAccessIsChecked : Obligations.RegisterAccessIsChecked := by
  unfold Obligations.RegisterAccessIsChecked
  intro s i v
  refine ⟨?_, ?_, ?_, ?_⟩
  · intro habsent
    have hno := State.hasReg_eq_false_iff.2 habsent
    exact ⟨readReg_error.2 ⟨.inl hno, rfl⟩, writeReg_error.2 ⟨hno, rfl⟩⟩
  · intro hundef
    exact readReg_error.2 ⟨.inr hundef, rfl⟩
  · intro hlt w hw
    exact readReg_ok.2 ⟨State.hasReg_iff.2 hlt, hw⟩
  · intro hlt
    have hhas := State.hasReg_iff.2 hlt
    exact ⟨_, writeReg_ok.2 ⟨hhas, rfl⟩, readReg_ok.2 ⟨hhas, State.setReg_reg_same s i _⟩,
      fun j hj => State.setReg_reg_other s _ hj.symm, rfl⟩

/-- Settles O28: the fetch and the write of the register both succeed, so the answer is the adjusted register. -/
theorem autoAdjustFetchesThenSteps : Obligations.AutoAdjustFetchesThenSteps := by
  unfold Obligations.AutoAdjustFetchesThenSteps
  intro s r p v hp hv
  have hauto (d : Word) : resolveAuto d r s = .ok (v, s.setReg r (.word (p + d))) := by
    have hw : writeReg r (p + d) s = .ok (s.setReg r (.word (p + d))) := writeReg_ok.2 ⟨(readReg_ok.1 hp).1, rfl⟩
    simp only [resolveAuto, hp, hv, hw, Except.bind, Except.map]
  exact ⟨hauto 1, by rw [resolveAutoDec, hauto, sub_eq_add_neg]⟩

/-! ## The resolver -/

theorem resolveRead_registerIndirect (a : AddrField) (s : State) :
    resolveRead ⟨.registerIndirect, a⟩ s = (readReg a s).bind fun x => (memRead x.toInt s).map fun v => (v, s) := by
  change loadFrom ((readReg a s).map _) s = _
  cases readReg a s <;> rfl

theorem resolveRead_indirect (a : AddrField) (s : State) :
    resolveRead ⟨.indirect, a⟩ s = (memRead a.toNat s).bind fun p => (memRead p.toInt s).map fun v => (v, s) := by
  change loadFrom ((memRead a.toNat s).map _) s = _
  cases memRead a.toNat s <;> rfl

theorem resolveRead_indexed (a : AddrField) (s : State) :
    resolveRead ⟨.indexed, a⟩ s = (s.i1.get .i1).bind fun x => (memRead (x.toInt + a.toInt) s).map fun v => (v, s) := by
  change loadFrom ((s.i1.get .i1).map _) s = _
  cases s.i1 <;> rfl

/-- Settles O21: the equation of each mode, and the answers of `stackPop`. -/
theorem readFollowsTheModeTable : Obligations.ReadFollowsTheModeTable := by
  unfold Obligations.ReadFollowsTheModeTable
  intro s a
  refine ⟨rfl, ?_, ?_, rfl, ?_, ?_, ?_, ?_, rfl, ?_, ?_, ?_⟩
  · intro c hc
    rw [resolveRead_registerIndirect, hc]; rfl
  · intro x hx
    rw [resolveRead_registerIndirect, hx]; rfl
  · intro c hc
    rw [resolveRead_indirect, hc]; rfl
  · intro p hp
    rw [resolveRead_indirect, hp]; rfl
  · intro hi
    rw [resolveRead_indexed, hi]; rfl
  · intro x hx
    rw [resolveRead_indexed, hx]; rfl
  · intro hempty
    exact stackPop_error.2 (.inl ⟨hempty, rfl⟩)
  · intro hpop h0 hlt
    exact stackPop_ok.2 ⟨hpop, State.inMemory_iff.2 ⟨h0, hlt⟩, rfl, rfl⟩
  · intro v t h
    obtain ⟨-, hm, hv, ht⟩ := stackPop_ok.1 h
    exact ⟨memRead_ok.2 ⟨hm, hv⟩, ht⟩

/-- The literal field stays below the sign bit of the word (R110). -/
theorem literal_toInt (a : AddrField) : (literal a).toInt = a.toNat := by
  have ha := a.isLt
  rw [literal, BitVec.toInt_setWidth]
  exact Int.bmod_eq_of_le (by simp) (by simp; omega)

/-- Settles O22: the literal is the field's number, and mode 6 reads the slot at `TSP`. -/
theorem literalAndPushModeReads : Obligations.LiteralAndPushModeReads := by
  unfold Obligations.LiteralAndPushModeReads
  intro s a
  have hslot : resolveRead ⟨.stackPush, a⟩ s = (memRead s.tsp.toInt s).map fun v => (v, s.setTsp (s.tsp + 1)) := rfl
  refine ⟨⟨literal a, rfl, literal_toInt a⟩, ?_, ?_⟩
  · intro hout
    rw [hslot, memRead_outside hout]; rfl
  · intro h0 hlt
    rw [hslot, memRead_inside h0 hlt]; rfl

theorem resolveRead_of_fault {o : Operand} {s : State} {c : Condition} (h : readFault o s = some c) :
    resolveRead o s = .error c := by
  rw [resolveRead_eq_answer, h, answer_some]

theorem resolveRead_of_none {o : Operand} {s : State} (h : readFault o s = none) :
    resolveRead o s = .ok (readValue o s, afterRead o s) := by
  rw [resolveRead_eq_answer, h, answer_none]

theorem resolveWrite_of_fault {o : Operand} {v : Word} {s : State} {c : Condition} (h : writeFault o s = some c) :
    resolveWrite o v s = .error c := by
  rw [resolveWrite_eq_answer, h, answer_some]

theorem resolveWrite_of_none {o : Operand} {v : Word} {s : State} (h : writeFault o s = none) :
    resolveWrite o v s = .ok (afterWrite o v s) := by
  rw [resolveWrite_eq_answer, h, answer_none]

/-- Settles O23, from the answer of a read in every mode (`resolveRead_eq_answer`). -/
theorem readingMeetsItsContract : Obligations.ReadingMeetsItsContract := by
  unfold Obligations.ReadingMeetsItsContract
  exact fun o s => ⟨fun _ => resolveRead_of_fault, resolveRead_of_none⟩

/-- Settles O26, from the answer of a write in every mode (`resolveWrite_eq_answer`). -/
theorem writingMeetsItsContract : Obligations.WritingMeetsItsContract := by
  unfold Obligations.WritingMeetsItsContract
  exact fun o v s => ⟨fun _ => resolveWrite_of_fault, resolveWrite_of_none⟩

/-- Settles O25: `writeTarget` answers the condition in each of the three modes. -/
theorem invalidTargetsRaise : Obligations.InvalidTargetsRaise := by
  unfold Obligations.InvalidTargetsRaise
  intro s a v m hm
  simp only [List.mem_cons, List.not_mem_nil, or_false] at hm
  rcases hm with rfl | rfl | rfl <;> rfl

/-- The pop finds the stack higher by one, the slot inside memory and the word in it. -/
theorem stackPop_of_stackPush {s t : State} {v : Word} (hinv : s.Inv) (h : stackPush v s = .ok t) :
    stackPop t = .ok (v, { s with mem := t.mem }) := by
  obtain ⟨hm, rfl⟩ := stackPush_ok.1 h
  obtain ⟨-, hlt⟩ := State.inMemory_iff.1 hm
  obtain ⟨-, hsize, -⟩ := Config.wf_iff.1 hinv.cfg
  have hadd : (s.tsp + 1).toInt = s.tsp.toInt + 1 := toInt_add_one (by omega)
  have horder := hinv.stackOrder
  refine stackPop_ok.2 ⟨?_, ?_, ?_, ?_⟩ <;> simp only [State.setTsp_tsp, State.setTsp_spr, State.setMem_spr, hadd]
  · omega
  · rw [add_sub_cancel_right]; exact hm
  · rw [add_sub_cancel_right]; exact (Memory.read_write_same ..).symm
  · rw [add_sub_cancel_right]; rfl

/-- Settles O27: below MEM_SIZE the push succeeds, and the pop finds what it stored. -/
theorem pushThenPopRestores : Obligations.PushThenPopRestores := by
  unfold Obligations.PushThenPopRestores
  intro s v hinv hlt
  have hbase := hinv.sprBase
  have horder := hinv.stackOrder
  have hpush := stackPush_inside (v := v) (s := s) (by omega) hlt
  refine ⟨_, hpush, stackPop_of_stackPush hinv hpush, Memory.read_write_same .., fun a ha => ?_⟩
  exact Memory.read_write_other _ _ (by omega)

/-! ## Conditions -/

theorem Condition.code_mem_iff_nonfatal {c : Condition} : c.code ∈ [1, 2] ↔ c.fatal = false := by
  cases c <;> simp [Condition.code, Condition.fatal]

/-- Settles O29: both updates unfold to the stated record, and the class is a function of the code. -/
theorem takingACondition : Obligations.TakingACondition := by
  unfold Obligations.TakingACondition
  exact fun s c => ⟨rfl, rfl, Condition.code_mem_iff_fatal.symm, Condition.code_mem_iff_nonfatal.symm⟩

end Sys2Proof.Machine
end

section
/-! Quotient and remainder under the two roundings (spec/42_arithmetic.md R136, R138), and the bounds they keep inside a
word. -/

namespace Sys2Proof.Machine

/-! ## The library's operations -/

theorem divResult_trunc {b : Int} (hb : b ≠ 0) (a : Int) : divResult .trunc a b = a.tdiv b := if_neg hb

theorem divResult_floor {b : Int} (hb : b ≠ 0) (a : Int) : divResult .floor a b = a.fdiv b := if_neg hb

theorem modResult_eq_sub {b : Int} (hb : b ≠ 0) (r : DivRounding) (a : Int) :
    modResult r a b = a - divResult r a b * b := by
  rw [modResult, divResult, if_neg hb, if_neg hb]

theorem modResult_trunc {b : Int} (hb : b ≠ 0) (a : Int) : modResult .trunc a b = a.tmod b := by
  rw [modResult_eq_sub hb, divResult_trunc hb, Int.tmod_def, mul_comm]

theorem modResult_floor {b : Int} (hb : b ≠ 0) (a : Int) : modResult .floor a b = a.fmod b := by
  rw [modResult_eq_sub hb, divResult_floor hb, Int.fmod_def, mul_comm]

/-! ## The remainder's range -/

/-- Rounding toward minus infinity leaves a remainder on the divisor's side of zero. -/
theorem fmod_mem_of_neg {b : Int} (hb : b < 0) (a : Int) : b < a.fmod b ∧ a.fmod b ≤ 0 := by
  have hneg : (-a).fmod (-b) = -a.fmod b := Int.neg_fmod_neg a b
  have hnonneg := Int.fmod_nonneg_of_pos (-a) (neg_pos.2 hb)
  have hlt := Int.fmod_lt_of_pos (-a) (neg_pos.2 hb)
  omega

theorem abs_modResult_lt {b : Int} (hb : b ≠ 0) (r : DivRounding) (a : Int) : |modResult r a b| < |b| := by
  cases r with
  | trunc =>
    rw [modResult_trunc hb, Int.abs_eq_natAbs, Int.abs_eq_natAbs, Int.natAbs_tmod, Int.ofNat_lt]
    exact Nat.mod_lt _ (Int.natAbs_pos.2 hb)
  | floor =>
    rw [modResult_floor hb]
    rcases hb.lt_or_gt with hneg | hpos
    · obtain ⟨hlo, hhi⟩ := fmod_mem_of_neg hneg a
      rw [abs_of_nonpos hhi, abs_of_neg hneg]
      omega
    · rw [abs_of_nonneg (Int.fmod_nonneg_of_pos a hpos), abs_of_pos hpos]
      exact Int.fmod_lt_of_pos a hpos

theorem eq_divResult_mul_add_modResult {b : Int} (hb : b ≠ 0) (r : DivRounding) (a : Int) :
    a = divResult r a b * b + modResult r a b := by
  rw [modResult_eq_sub hb]
  ring

/-! ## The signs -/

/-- Rounding toward zero divides the magnitudes; a quotient of magnitude zero has no sign. -/
theorem tdiv_eq_sign_mul_abs_div (a b : Int) : a.tdiv b = a.sign * b.sign * (|a| / |b|) := by
  have habs : |a.tdiv b| = |a| / |b| := by
    rw [Int.abs_eq_natAbs, Int.natAbs_tdiv, Int.abs_eq_natAbs, Int.abs_eq_natAbs]
    rfl
  rw [← Int.sign_mul_abs (a.tdiv b), habs, Int.sign_tdiv]
  split
  · have hlt : |a| < |b| := by
      rw [Int.abs_eq_natAbs, Int.abs_eq_natAbs]
      omega
    have hzero : |a| / |b| = 0 := Int.ediv_eq_zero_of_lt (abs_nonneg a) hlt
    rw [hzero, mul_zero, mul_zero]
  · rfl

theorem sign_fmod (a : Int) {b : Int} (hb : b ≠ 0) : a.fmod b = 0 ∨ (a.fmod b).sign = b.sign := by
  by_cases hzero : a.fmod b = 0
  · exact .inl hzero
  · right
    rcases hb.lt_or_gt with hneg | hpos
    · have hle := (fmod_mem_of_neg hneg a).2
      rw [Int.sign_eq_neg_one_of_neg hneg, Int.sign_eq_neg_one_of_neg (by omega)]
    · have hge := Int.fmod_nonneg_of_pos a hpos
      rw [Int.sign_eq_one_of_pos hpos, Int.sign_eq_one_of_pos (by omega)]

theorem sign_tmod_of_ne_zero {a b : Int} (h : a.tmod b ≠ 0) : (a.tmod b).sign = a.sign := by
  rw [Int.sign_tmod, if_neg]
  exact fun hdvd => h (Int.tmod_eq_zero_of_dvd hdvd)

/-- The two roundings differ only for an inexact quotient of unlike signs. -/
theorem tdiv_eq_fdiv_of_dvd_or_sign_eq {a b : Int} (hb : b ≠ 0) (h : b ∣ a ∨ a.sign = b.sign) :
    a.tdiv b = a.fdiv b := by
  rcases h with hdvd | hsign
  · rw [Int.tdiv_eq_ediv_of_dvd hdvd, Int.fdiv_eq_ediv_of_dvd hdvd]
  · rcases hb.lt_or_gt with hneg | hpos
    · have ha : a < 0 := Int.sign_eq_neg_one_iff_neg.1 (hsign.trans (Int.sign_eq_neg_one_of_neg hneg))
      rw [← Int.neg_tdiv_neg, ← Int.neg_fdiv_neg]
      exact (Int.fdiv_eq_tdiv_of_nonneg (by omega) (by omega)).symm
    · have ha : 0 < a := Int.sign_eq_one_iff_pos.1 (hsign.trans (Int.sign_eq_one_of_pos hpos))
      exact (Int.fdiv_eq_tdiv_of_nonneg ha.le hpos.le).symm

/-- Settles O39: the quotients and remainders are the library's, whose ranges and signs are those above. -/
theorem divisionLaws : Obligations.DivisionLaws := by
  unfold Obligations.DivisionLaws
  intro a b hb
  have hfloor : a = a.fdiv b * b + a.fmod b := by
    simpa only [divResult_floor hb, modResult_floor hb] using eq_divResult_mul_add_modResult hb .floor a
  refine ⟨fun r => ⟨eq_divResult_mul_add_modResult hb r a, abs_modResult_lt hb r a⟩, ?_, ?_, ?_, ?_, ?_, ?_⟩ <;>
    simp only [divResult_trunc hb, divResult_floor hb, modResult_trunc hb, modResult_floor hb, add_mul, one_mul]
  · exact tdiv_eq_sign_mul_abs_div a b
  · intro hpos
    have hnonneg := Int.fmod_nonneg_of_pos a hpos
    have hlt := Int.fmod_lt_of_pos a hpos
    omega
  · intro hneg
    obtain ⟨hlo, hhi⟩ := fmod_mem_of_neg hneg a
    omega
  · exact or_iff_not_imp_left.2 sign_tmod_of_ne_zero
  · exact sign_fmod a hb
  · exact tdiv_eq_fdiv_of_dvd_or_sign_eq hb

/-! ## Results that leave the word -/

/-- A divisor of magnitude two or more halves the dividend, so only `-1` can bring the quotient out of the word. -/
theorem eq_minimum_of_divResult_overflows {a b : Int} {r : DivRounding} (ha : -2147483648 ≤ a ∧ a ≤ 2147483647)
    (hq : divResult r a b < -2147483648 ∨ 2147483647 < divResult r a b) : a = -2147483648 ∧ b = -1 := by
  have hb : b ≠ 0 := by
    rintro rfl
    simp [divResult] at hq
  have heq := eq_divResult_mul_add_modResult hb r a
  have hr := abs_modResult_lt hb r a
  generalize divResult r a b = q at heq hq
  generalize modResult r a b = m at heq hr
  have hqabs : 2147483648 ≤ |q| := by
    rcases hq with h | h
    · exact le_abs.2 (.inr (by omega))
    · exact le_abs.2 (.inl (by omega))
  have haabs : |a| ≤ 2147483648 := abs_le.2 (by omega)
  have hprod : |q| * |b| ≤ |a| + |m| := by
    rw [← abs_mul, show q * b = a - m by omega]
    exact abs_sub a m
  have hsmall : |b| < 2 := by
    by_contra hge
    nlinarith
  obtain rfl | rfl : b = 1 ∨ b = -1 := by
    have := abs_lt.1 hsmall
    omega
  · rw [abs_one, Int.abs_lt_one_iff] at hr
    omega
  · rw [abs_neg, abs_one, Int.abs_lt_one_iff] at hr
    omega

/-- The remainder is smaller than a divisor that fits. -/
theorem modResult_fits {a b : Int} {r : DivRounding} (hb : -2147483648 ≤ b ∧ b ≤ 2147483647) :
    ¬ (modResult r a b < -2147483648 ∨ 2147483647 < modResult r a b) := by
  by_cases hzero : b = 0
  · simp [modResult, hzero]
  · have hr := abs_modResult_lt hzero r a
    have hbabs : |b| ≤ 2147483648 := abs_le.2 (by omega)
    have := abs_lt.1 (hr.trans_le hbabs)
    omega

theorem toInt_bounds (w : Word) : -2147483648 ≤ w.toInt ∧ w.toInt ≤ 2147483647 := by
  have hlo := BitVec.le_toInt w
  have hhi := BitVec.toInt_lt (x := w)
  omega

end Sys2Proof.Machine
end

section
/-! The arithmetic instructions and the compare (spec/42_arithmetic.md R130 to R137) in the terms of the operand
contract, and what they record. -/

namespace Sys2Proof.Machine

open Sys2Proof.Claims

/-! ## The records -/

/-- The record of a dividing instruction: `DivisionByZero` for a zero divisor (R135, R136). -/
def divisionConds (divides : Bool) (o2 : Operand) (b : Int) : List Condition :=
  if divides && decide (b = 0) then [.divisionByZero o2] else []

theorem not_fitsWord_iff {z : Int} : (!fitsWord z) = true ↔ z < -2147483648 ∨ 2147483647 < z := by
  simp [fitsWord]

theorem overflowConds_eq_nil_iff {o1 : Operand} {z : Int} :
    overflowConds o1 z = [] ↔ ¬ (z < -2147483648 ∨ 2147483647 < z) := by
  unfold overflowConds
  split <;> simp [*]

@[simp] theorem appendConds_nil (s : State) : appendConds [] s = s := by
  simp [appendConds]

theorem reportIf_eq_appendConds (p : Bool) (c : Condition) (s : State) :
    s.reportIf p c = appendConds (if p then [c] else []) s := by
  cases p with
  | true => rfl
  | false => simp [State.reportIf]

theorem appendConds_append (cs cs' : List Condition) (s : State) :
    appendConds cs' (appendConds cs s) = appendConds (cs ++ cs') s := by
  simp [appendConds]

theorem arithReports_eq_appendConds (divides : Bool) (o1 o2 : Operand) (b z : Int) (s : State) :
    arithReports divides o1 o2 b z s = appendConds (divisionConds divides o2 b ++ overflowConds o1 z) s := by
  have hover : (if (!fitsWord z) = true then [Condition.overflow o1] else []) = overflowConds o1 z :=
    if_congr not_fitsWord_iff rfl rfl
  rw [arithReports, reportIf_eq_appendConds, reportIf_eq_appendConds, appendConds_append, hover]
  rfl

/-! ## The handler -/

/-- The handler's chain of accesses, each by its contract (R130). -/
theorem arithmeticRuns_of_arithmetic {i : Operand → Operand → Instr} {op : State → Int → Int → Int} (divides : Bool)
    (hexec : ∀ o1 o2 s, exec (i o1 o2) s = arithmetic (op s) divides o1 o2 s) :
    ArithmeticRuns i op (divisionConds divides) := by
  unfold ArithmeticRuns
  intro o1 o2 s
  simp only [hexec, arithmetic]
  refine ⟨?_, ?_, ?_, ?_⟩
  · intro c hc
    exact attempt_resolveRead_of_fault hc _
  · intro h1 c hc
    rw [attempt_resolveRead_of_none h1, attempt_resolveRead_of_fault hc]
  · intro h1 h2 c hc
    rw [attempt_resolveRead_of_none h1, attempt_resolveRead_of_none h2]
    simp only [arithReports_eq_appendConds]
    exact attempt_resolveWrite_of_fault hc _ _
  · intro h1 h2 hw
    rw [attempt_resolveRead_of_none h1, attempt_resolveRead_of_none h2]
    simp only [arithReports_eq_appendConds]
    exact attempt_resolveWrite_of_none hw _ _

theorem divisionConds_true : divisionConds true = fun o2 b => if b = 0 then [.divisionByZero o2] else [] := by
  funext o2 b
  simp [divisionConds]

theorem add_runs : ArithmeticRuns .add (fun _ a b => a + b) fun _ _ => [] :=
  arithmeticRuns_of_arithmetic false fun _ _ _ => rfl

theorem sub_runs : ArithmeticRuns .sub (fun _ a b => a - b) fun _ _ => [] :=
  arithmeticRuns_of_arithmetic false fun _ _ _ => rfl

theorem mul_runs : ArithmeticRuns .mul (fun _ a b => a * b) fun _ _ => [] :=
  arithmeticRuns_of_arithmetic false fun _ _ _ => rfl

theorem div_runs : ArithmeticRuns .div (fun s => divResult s.cfg.divRounding) (divisionConds true) :=
  arithmeticRuns_of_arithmetic true fun _ _ _ => rfl

theorem mod_runs : ArithmeticRuns .mod (fun s => modResult s.cfg.divRounding) (divisionConds true) :=
  arithmeticRuns_of_arithmetic true fun _ _ _ => rfl

/-- Settles O32, as the handler with the sum. -/
theorem addComputesTheSum : Obligations.AddComputesTheSum := by
  unfold Obligations.AddComputesTheSum
  exact ⟨hasOpcode_of_opcode fun _ _ => rfl, add_runs⟩

/-- Settles O33, as the handler with the difference. -/
theorem subComputesTheDifference : Obligations.SubComputesTheDifference := by
  unfold Obligations.SubComputesTheDifference
  exact ⟨hasOpcode_of_opcode fun _ _ => rfl, sub_runs⟩

/-- Settles O34, as the handler with the product. -/
theorem mulComputesTheProduct : Obligations.MulComputesTheProduct := by
  unfold Obligations.MulComputesTheProduct
  exact ⟨hasOpcode_of_opcode fun _ _ => rfl, mul_runs⟩

/-- Settles O35, as the dividing handler with the quotient. -/
theorem divComputesTheQuotient : Obligations.DivComputesTheQuotient := by
  unfold Obligations.DivComputesTheQuotient
  rw [← divisionConds_true]
  exact ⟨hasOpcode_of_opcode fun _ _ => rfl, div_runs⟩

/-- Settles O36, as the dividing handler with the remainder of the same quotient. -/
theorem modComputesTheRemainder : Obligations.ModComputesTheRemainder := by
  unfold Obligations.ModComputesTheRemainder
  rw [← divisionConds_true]
  exact ⟨hasOpcode_of_opcode fun _ _ => rfl, mod_runs⟩

/-! ## The compare -/

/-- The number recorded is the sign of the exact difference (R16, R137). -/
theorem compareWords_value (a b : Word) :
    (compareWords a b).value = if a.toInt < b.toInt then -1 else if a.toInt = b.toInt then 0 else 1 := by
  unfold compareWords
  split
  · rfl
  · split <;> rfl

theorem exec_cmp_of_read {o1 o2 : Operand} {s : State} (h : readFault o1 s = none) :
    exec (.cmp o1 o2) s = (afterRead o1 s).attempt (resolveRead o2 (afterRead o1 s))
      fun (b, s2) => .next (s2.setCr (.holds (compareWords (readValue o1 s) b))) :=
  attempt_resolveRead_of_none h _

/-- Settles O37: the answers of the two reads, then the comparison of their values. -/
theorem cmpSetsTheSignOfTheDifference : Obligations.CmpSetsTheSignOfTheDifference := by
  unfold Obligations.CmpSetsTheSignOfTheDifference
  refine ⟨hasOpcode_of_opcode fun _ _ => rfl, fun o1 o2 s => ⟨?_, ?_, ?_⟩⟩
  · intro c hc
    exact attempt_resolveRead_of_fault hc _
  · intro h1 c hc
    rw [exec_cmp_of_read h1, attempt_resolveRead_of_fault hc]
  · intro h1 h2
    refine ⟨_, ?_, compareWords_value (readValue o1 s) (readValue o2 (afterRead o1 s))⟩
    rw [exec_cmp_of_read h1, attempt_resolveRead_of_none h2]
    rfl

/-! ## The next state of an arithmetic instruction -/

/-- The state after both reads. -/
def bothRead (o1 o2 : Operand) (s : State) : State := afterRead o2 (afterRead o1 s)

theorem readFault_fatal {o : Operand} {s : State} {c : Condition} (h : readFault o s = some c) : c.fatal = true :=
  resolveRead_error_fatal (resolveRead_of_fault h)

theorem writeFault_fatal {o : Operand} {s : State} {c : Condition} (h : writeFault o s = some c) : c.fatal = true :=
  resolveWrite_error_fatal (resolveWrite_of_fault (v := 0) h)

/-- The four ways an arithmetic instruction ends: a condition of the first read, of the second, of the write, or the
write; before the write its records stand in the log. -/
inductive ArithmeticOutcome (o1 o2 : Operand) (z : Int) (cs : List Condition) (s : State) : State → Prop where
  | firstRaised (c : Condition) (hc : readFault o1 s = some c) : ArithmeticOutcome o1 o2 z cs s (s.raise c)
  | secondRaised (h1 : readFault o1 s = none) (c : Condition) (hc : readFault o2 (afterRead o1 s) = some c) :
      ArithmeticOutcome o1 o2 z cs s ((afterRead o1 s).raise c)
  | writeRaised (h1 : readFault o1 s = none) (h2 : readFault o2 (afterRead o1 s) = none) (c : Condition)
      (hc : writeFault o1 (appendConds cs (bothRead o1 o2 s)) = some c) :
      ArithmeticOutcome o1 o2 z cs s ((appendConds cs (bothRead o1 o2 s)).raise c)
  | wrote (h1 : readFault o1 s = none) (h2 : readFault o2 (afterRead o1 s) = none)
      (hw : writeFault o1 (appendConds cs (bothRead o1 o2 s)) = none) :
      ArithmeticOutcome o1 o2 z cs s (afterWrite o1 (BitVec.ofInt 32 z) (appendConds cs (bothRead o1 o2 s)))

/-- The result an arithmetic instruction computes, exactly. -/
def exactResult (op : State → Int → Int → Int) (o1 o2 : Operand) (s : State) : Int :=
  op s (readValue o1 s).toInt (readValue o2 (afterRead o1 s)).toInt

/-- The non-fatal conditions it records. -/
def arithmeticConds (op : State → Int → Int → Int) (extra : Operand → Int → List Condition) (o1 o2 : Operand)
    (s : State) : List Condition :=
  extra o2 (readValue o2 (afterRead o1 s)).toInt ++ overflowConds o1 (exactResult op o1 o2 s)

theorem arithmeticOutcome_of_next {i : Operand → Operand → Instr} {op : State → Int → Int → Int}
    {extra : Operand → Int → List Condition} (hi : ArithmeticRuns i op extra) {o1 o2 : Operand} {s t : State}
    (h : exec (i o1 o2) s = .next t) :
    ArithmeticOutcome o1 o2 (exactResult op o1 o2 s) (arithmeticConds op extra o1 o2 s) s t := by
  obtain ⟨hfirst, hsecond, hwrite, hdone⟩ := hi o1 o2 s
  have hnext {u : State} (hu : exec (i o1 o2) s = .next u) : t = u := Host.Outcome.next.inj (h.symm.trans hu)
  cases h1 : readFault o1 s with
  | some c => exact hnext (hfirst c h1) ▸ .firstRaised c h1
  | none =>
    cases h2 : readFault o2 (afterRead o1 s) with
    | some c => exact hnext (hsecond h1 c h2) ▸ .secondRaised h1 c h2
    | none =>
      cases hw : writeFault o1 (appendConds (arithmeticConds op extra o1 o2 s) (bothRead o1 o2 s)) with
      | some c => exact hnext (hwrite h1 h2 c hw) ▸ .writeRaised h1 h2 c hw
      | none => exact hnext (hdone h1 h2 hw) ▸ .wrote h1 h2 hw

@[simp] theorem conds_afterWrite (o : Operand) (v : Word) (s : State) : (afterWrite o v s).conds = s.conds := by
  unfold afterWrite
  cases o.mode <;> rfl

/-- An instruction that goes on running with no record wrote its result, and that result fits a word. -/
theorem ArithmeticOutcome.exact {o1 o2 : Operand} {z : Int} {extra : List Condition} {s t : State}
    (h : ArithmeticOutcome o1 o2 z (extra ++ overflowConds o1 z) s t) (hrun : t.run = .running)
    (hconds : t.conds = s.conds) :
    (BitVec.ofInt 32 z).toInt = z ∧ t = afterWrite o1 (BitVec.ofInt 32 z) (bothRead o1 o2 s) := by
  cases h with
  | firstRaised c _ => cases hrun
  | secondRaised _ c _ => cases hrun
  | writeRaised _ _ c _ => cases hrun
  | wrote _ _ _ =>
    have hnil : extra ++ overflowConds o1 z = [] := by
      rw [conds_afterWrite] at hconds
      exact List.map_eq_nil_iff.1 (List.append_right_eq_self.1 hconds)
    have hfits := overflowConds_eq_nil_iff.1 (List.append_eq_nil_iff.1 hnil).2
    rw [hnil, appendConds_nil, BitVec.toInt_ofInt]
    exact ⟨Int.bmod_eq_of_le (by omega) (by omega), rfl⟩

/-- Settles O38: with no record in the log the result written is the one that fits. -/
theorem exactUnlessOverflowIsRecorded : Obligations.ExactUnlessOverflowIsRecorded := by
  unfold Obligations.ExactUnlessOverflowIsRecorded
  intro o1 o2 s t i op hmem _ h hrun hconds
  have hruns : ArithmeticRuns i (fun _ => op) fun _ _ => [] := by
    simp only [List.mem_cons, List.not_mem_nil, or_false, Prod.mk.injEq] at hmem
    rcases hmem with ⟨rfl, rfl⟩ | ⟨rfl, rfl⟩ | ⟨rfl, rfl⟩
    · exact add_runs
    · exact sub_runs
    · exact mul_runs
  exact ⟨_, (arithmeticOutcome_of_next hruns h).exact hrun hconds⟩

/-- The records appended are those of the handler and, when an access raises, one fatal record. -/
theorem ArithmeticOutcome.mem_conds {o1 o2 : Operand} {z : Int} {cs : List Condition} {s t : State}
    (h : ArithmeticOutcome o1 o2 z cs s t) {rs : List CondRecord} (hrs : t.conds = s.conds ++ rs) {r : CondRecord}
    (hr : r ∈ rs) : r.cond.fatal = true ∨ r.cond ∈ cs := by
  have hlog {add : List CondRecord} (hadd : t.conds = s.conds ++ add) : r ∈ add :=
    List.append_cancel_left (hrs.symm.trans hadd) ▸ hr
  cases h with
  | firstRaised c hc =>
    obtain rfl := List.mem_singleton.1 (hlog rfl)
    exact .inl (readFault_fatal hc)
  | secondRaised _ c hc =>
    obtain rfl := List.mem_singleton.1 (hlog rfl)
    exact .inl (readFault_fatal hc)
  | writeRaised _ _ c hc =>
    rcases List.mem_append.1 (hlog (List.append_assoc ..)) with hr | hr
    · obtain ⟨c', hc', rfl⟩ := List.mem_map.1 hr
      exact .inr hc'
    · obtain rfl := List.mem_singleton.1 hr
      exact .inl (writeFault_fatal hc)
  | wrote _ _ _ =>
    obtain ⟨c', hc', rfl⟩ := List.mem_map.1 (hlog (conds_afterWrite ..))
    exact .inr hc'

/-- An `Overflow` record of a dividing instruction means that its result left the word. -/
theorem ArithmeticOutcome.overflows {o1 o2 o : Operand} {b z : Int} {s t : State}
    (h : ArithmeticOutcome o1 o2 z (divisionConds true o2 b ++ overflowConds o1 z) s t) {rs : List CondRecord}
    (hrs : t.conds = s.conds ++ rs) {r : CondRecord} (hr : r ∈ rs) (ho : r.cond = .overflow o) :
    z < -2147483648 ∨ 2147483647 < z := by
  by_contra hfits
  rcases h.mem_conds hrs hr with hfatal | hmem
  · rw [ho] at hfatal
    cases hfatal
  · rw [overflowConds_eq_nil_iff.2 hfits, ho, divisionConds] at hmem
    split at hmem <;> simp at hmem

/-- Settles O40: a recorded `Overflow` means a result outside the word, which a remainder never is and a quotient only
for `-2^31 / -1`. -/
theorem divOverflowsOnlyAtTheMinimum : Obligations.DivOverflowsOnlyAtTheMinimum := by
  unfold Obligations.DivOverflowsOnlyAtTheMinimum
  intro o1 o2 s t rs
  constructor
  · intro h hrs r hr o ho
    exact modResult_fits (toInt_bounds _) ((arithmeticOutcome_of_next mod_runs h).overflows hrs hr ho)
  · rintro h hrs ⟨r, hr, o, ho⟩
    have hout := arithmeticOutcome_of_next div_runs h
    exact eq_minimum_of_divResult_overflows (toInt_bounds _) (hout.overflows hrs hr ho)

end Sys2Proof.Machine
end

section
/-! The jumps (spec/44_control_flow.md R160 to R167): whether one is taken depends on `CR` alone, and a taken one does
what JMP does. -/

namespace Sys2Proof.Machine

open Sys2Proof.Claims

/-! ## JMP -/

theorem jumpTo_of_fault {o : Operand} {s : State} {c : Condition} (h : readFault o s = some c) :
    jumpTo o s = .next (s.raise c) :=
  attempt_resolveRead_of_fault h _

theorem jumpTo_of_none {o : Operand} {s : State} (h : readFault o s = none) :
    jumpTo o s = .next { afterRead o s with pc := readValue o s } :=
  attempt_resolveRead_of_none h _

/-- Settles O44, from the two answers of the jump. -/
theorem jmpLoadsTheTarget : Obligations.JmpLoadsTheTarget := by
  unfold Obligations.JmpLoadsTheTarget
  exact ⟨hasOpcode_of_opcode fun _ _ => rfl, fun o1 o2 s => ⟨fun _ => jumpTo_of_fault, jumpTo_of_none⟩⟩

/-! ## The conditional jumps -/

/-- The condition a conditional jump tests (R162 to R167); of other instructions nothing is meant. -/
def jumpCondition : Instr → Comparison → Bool
  | .jeq _ _ => condEq
  | .jne _ _ => condNe
  | .jlt _ _ => condLt
  | .jle _ _ => condLe
  | .jgt _ _ => condGt
  | .jge _ _ => condGe
  | _ => fun _ => false

theorem exec_conditionalJump {i : Instr} (hi : i.isConditionalJump = true) (s : State) :
    exec i s = conditionalJump (jumpCondition i) i.op1 s := by
  cases i <;> cases hi <;> rfl

/-- The taken column of R161 is the condition on the comparison recorded. -/
theorem takesJump_of_holds {i : Instr} {s : State} {c : Comparison} (hi : i.isConditionalJump = true)
    (hcr : s.cr = .holds c) : takesJump i s = jumpCondition i c := by
  cases i <;> cases hi <;> simp only [takesJump, hcr] <;> cases c <;> rfl

theorem takesJump_of_undef {i : Instr} {s : State} (hi : i.isConditionalJump = true) (hcr : s.cr = .undef) :
    takesJump i s = false := by
  cases i <;> cases hi <;> simp only [takesJump, hcr] <;> rfl

theorem exec_of_cr_undef {i : Instr} {s : State} (hi : i.isConditionalJump = true) (hcr : s.cr = .undef) :
    exec i s = .next (s.raise (.undefinedRegister .cr)) := by
  rw [exec_conditionalJump hi]
  simp only [conditionalJump, hcr]

theorem exec_of_cr_holds {i : Instr} {s : State} {c : Comparison} (hi : i.isConditionalJump = true)
    (hcr : s.cr = .holds c) : exec i s = if takesJump i s then jumpTo i.op1 s else .next s := by
  rw [exec_conditionalJump hi, takesJump_of_holds hi hcr]
  simp only [conditionalJump, hcr]

theorem exec_of_not_takesJump {i : Instr} {s : State} (hi : i.isConditionalJump = true) (hcr : s.cr ≠ .undef)
    (h : takesJump i s = false) : exec i s = .next s := by
  cases hc : s.cr with
  | undef => exact absurd hc hcr
  | holds c => rw [exec_of_cr_holds hi hc, h]; rfl

/-- A taken jump, JMP included, loads its target (R160, R161). -/
theorem exec_of_takesJump {i : Instr} {s : State} (h : takesJump i s = true) : exec i s = jumpTo i.op1 s := by
  by_cases hi : i.isConditionalJump = true
  · cases hcr : s.cr with
    | undef =>
      rw [takesJump_of_undef hi hcr] at h
      cases h
    | holds c => rw [exec_of_cr_holds hi hcr, if_pos h]
  · cases i with
    | jmp o1 o2 => rfl
    | _ => simp [Instr.isConditionalJump, takesJump] at hi h

/-- Settles O45, by the content of `CR`: undefined, or a comparison that takes the jump or does not. -/
theorem conditionalJumpsFollowTheComparison : Obligations.ConditionalJumpsFollowTheComparison := by
  unfold Obligations.ConditionalJumpsFollowTheComparison
  refine ⟨hasOpcode_of_opcode fun _ _ => rfl, hasOpcode_of_opcode fun _ _ => rfl, hasOpcode_of_opcode fun _ _ => rfl,
    hasOpcode_of_opcode fun _ _ => rfl, hasOpcode_of_opcode fun _ _ => rfl, hasOpcode_of_opcode fun _ _ => rfl,
    fun i s hi => ⟨exec_of_cr_undef hi, exec_of_not_takesJump hi, ?_, ?_⟩⟩
  · intro h c hc
    rw [exec_of_takesJump h, jumpTo_of_fault hc]
  · intro h hr
    rw [exec_of_takesJump h, jumpTo_of_none hr]

/-! ## Operands not used -/

/-- Settles O58: the arms of these instructions do not look at the operand. -/
theorem unusedOperandsHaveNoEffect : Obligations.UnusedOperandsHaveNoEffect := by
  unfold Obligations.UnusedOperandsHaveNoEffect
  intro o1 o2 p1 p2 s
  constructor <;> intro i hi <;> simp only [List.mem_cons, List.not_mem_nil, or_false] at hi
  · rcases hi with rfl | rfl | rfl | rfl | rfl | rfl | rfl | rfl | rfl <;> rfl
  · rcases hi with rfl | rfl <;> rfl

end Sys2Proof.Machine
end

section
/-! What each instruction leaves unchanged (spec/41_addressing.md section 7; spec/60_exceptions.md R210 to R212): before
its ending it can have moved `TSP` and appended one non-fatal record, and nothing else. -/

namespace Sys2Proof.Machine

open Sys2Proof.Claims

/-! ## Before the ending -/

/-- The state in which an instruction ends: `TSP` moved by its reads, its non-fatal records appended. -/
def beforeEnding (cs : List Condition) (tsp : Word) (s : State) : State := appendConds cs (s.setTsp tsp)

theorem ReadStep.eq_setTsp {s t : State} (h : ReadStep s t) : t = s.setTsp t.tsp := by
  rcases h with rfl | ⟨-, rfl⟩ | ⟨-, -, rfl⟩ <;> rfl

theorem Reported.eq_appendConds {s t : State} (h : Reported s t) :
    ∃ cs : List Condition, (cs = [] ∨ ∃ c, cs = [c] ∧ c.fatal = false) ∧ t = appendConds cs s := by
  rcases h with rfl | ⟨c, hc, rfl⟩
  · exact ⟨[], .inl rfl, (appendConds_nil _).symm⟩
  · exact ⟨[c], .inr ⟨c, rfl, hc⟩, rfl⟩

/-- Every instruction is an ending in such a state. -/
theorem exec_ending {i : Instr} {s t : State} (h : exec i s = .next t) :
    ∃ cs tsp, (cs = [] ∨ ∃ c, cs = [c] ∧ c.fatal = false) ∧ Ending i (beforeEnding cs tsp s) t := by
  obtain ⟨s1, s2, s3, h1, h2, h3, hend⟩ := exec_shape h
  obtain ⟨cs, hcs, rfl⟩ := h3.eq_appendConds
  refine ⟨cs, s2.tsp, hcs, ?_⟩
  rw [h2.eq_setTsp, h1.eq_setTsp] at hend
  exact hend

/-! ## The endings -/

/-- A write moves neither `CR` nor the special registers. -/
theorem sameSpecials_of_resolveWrite {o : Operand} {v : Word} {s t : State} (h : resolveWrite o v s = .ok t) :
    SameSpecials s t ∧ t.cr = s.cr := by
  rcases resolveWrite_ok h with ⟨-, -, rfl⟩ | ⟨ea, -, -, rfl⟩ | ⟨-, -, -, rfl⟩ <;>
    exact ⟨⟨rfl, rfl, rfl, rfl, rfl, rfl⟩, rfl⟩

theorem reg_of_resolveWrite {o : Operand} {v : Word} {s t : State} (h : resolveWrite o v s = .ok t) {r : AddrField}
    (hr : ¬ (o.mode = .registerDirect ∧ o.addr = r)) : t.reg r = s.reg r := by
  rcases resolveWrite_ok h with ⟨hm, -, rfl⟩ | ⟨ea, -, -, rfl⟩ | ⟨-, -, -, rfl⟩
  · exact State.setReg_reg_other s _ fun ha => hr ⟨hm, ha⟩
  · rfl
  · rfl

theorem tsp_of_resolveWrite {o : Operand} {v : Word} {s t : State} (h : resolveWrite o v s = .ok t)
    (ho : o.mode ≠ .stackPush) : t.tsp = s.tsp := by
  rcases resolveWrite_ok h with ⟨-, -, rfl⟩ | ⟨ea, -, -, rfl⟩ | ⟨hm, -, -, -⟩
  · rfl
  · rfl
  · exact absurd hm ho

/-- A write changes no word but the one its target names. -/
theorem read_of_resolveWrite {o : Operand} {v : Word} {s t : State} (h : resolveWrite o v s = .ok t) {a : Nat}
    (ha : ∀ g, writeTarget o s = .ok g → g.address s ≠ some (a : Int)) : t.mem.read a = s.mem.read a := by
  rcases resolveWrite_ok h with ⟨-, -, rfl⟩ | ⟨ea, hg, hm, rfl⟩ | ⟨-, hg, hm, rfl⟩
  · rfl
  all_goals
    have h0 := (State.inMemory_iff.1 hm).1
    have hne : _ ≠ (a : Int) := fun heq => ha _ hg (congrArg some heq)
    exact Memory.read_write_other _ _ (by omega)

theorem Ending.sameSpecials {i : Instr} {u t : State} (h : Ending i u t) : SameSpecials u t := by
  cases h with
  | wrote _ v _ ht => exact (sameSpecials_of_resolveWrite ht).1
  | pushed o1 o2 _ v _ ht =>
    obtain ⟨-, rfl⟩ := stackPush_ok.1 ht
    exact ⟨rfl, rfl, rfl, rfl, rfl, rfl⟩
  | _ => exact ⟨rfl, rfl, rfl, rfl, rfl, rfl⟩

theorem Ending.cr_eq {i : Instr} {u t : State} (h : Ending i u t) (hi : ∀ o1 o2, i ≠ .cmp o1 o2) : t.cr = u.cr := by
  cases h with
  | wrote _ v _ ht => exact (sameSpecials_of_resolveWrite ht).2
  | pushed o1 o2 _ v _ ht =>
    obtain ⟨-, rfl⟩ := stackPush_ok.1 ht
    rfl
  | compared o1 o2 hcmp c => exact absurd hcmp (hi o1 o2)
  | _ => rfl

theorem Ending.pc_eq {i : Instr} {u t : State} (h : Ending i u t) (hi : i.isJump = false) : t.pc = u.pc := by
  cases h with
  | wrote _ v _ ht => exact (keepsControl_of_resolveWrite ht).1
  | pushed o1 o2 _ v _ ht => exact (keepsControl_of_stackPush ht).1
  | jumped hj v => rw [hi] at hj; cases hj
  | _ => rfl

theorem Ending.reg_eq {i : Instr} {u t : State} (h : Ending i u t) {r : AddrField}
    (hr : ¬ (i.writesOp1 = true ∧ i.op1.mode = .registerDirect ∧ i.op1.addr = r)) : t.reg r = u.reg r := by
  cases h with
  | wrote hi v _ ht => exact reg_of_resolveWrite ht fun hr' => hr ⟨hi, hr'⟩
  | pushed o1 o2 _ v _ ht =>
    obtain ⟨-, rfl⟩ := stackPush_ok.1 ht
    rfl
  | _ => rfl

theorem Ending.regs_eq {i : Instr} {u t : State} (h : Ending i u t) (hi : i.writesOp1 = false) : t.regs = u.regs := by
  cases h with
  | wrote hw v _ ht => rw [hi] at hw; cases hw
  | pushed o1 o2 _ v _ ht =>
    obtain ⟨-, rfl⟩ := stackPush_ok.1 ht
    rfl
  | _ => rfl

theorem Ending.mem_eq {i : Instr} {u t : State} (h : Ending i u t) (hi : i.writesOp1 = false)
    (hpush : ∀ o1 o2, i ≠ .push o1 o2) : t.mem = u.mem := by
  cases h with
  | wrote hw v _ ht => rw [hi] at hw; cases hw
  | pushed o1 o2 hp v _ ht => exact absurd hp (hpush o1 o2)
  | _ => rfl

/-! ## Every instruction -/

/-- Settles O54: before its ending an instruction writes none of these, and each ending writes what its instruction may. -/
theorem onlyTheNamedInstructionsWrite : Obligations.OnlyTheNamedInstructionsWrite := by
  unfold Obligations.OnlyTheNamedInstructionsWrite
  intro i s t h
  obtain ⟨cs, tsp, -, hend⟩ := exec_ending h
  exact ⟨hend.sameSpecials, hend.cr_eq, hend.pc_eq, hend.regs_eq, hend.mem_eq⟩

theorem reg_of_exec {i : Instr} {s t : State} (h : exec i s = .next t) {r : AddrField}
    (hr : ¬ (i.writesOp1 = true ∧ i.op1.mode = .registerDirect ∧ i.op1.addr = r)) : t.reg r = s.reg r := by
  obtain ⟨cs, tsp, -, hend⟩ := exec_ending h
  exact hend.reg_eq hr

/-- An instruction ends by taking a fatal condition, or with the log as it is and the run state as it is or EOP's. -/
theorem Ending.raised_or_keeps_conds {i : Instr} {u t : State} (h : Ending i u t) :
    (∃ c : Condition, c.fatal = true ∧ t = u.raise c) ∨
      ((t.run = u.run ∨ t.run = .halted .eop) ∧ t.conds = u.conds) := by
  cases h with
  | raised c hc => exact .inl ⟨c, hc, rfl⟩
  | wrote _ v _ ht =>
    obtain ⟨-, hrun, hconds⟩ := keepsControl_of_resolveWrite ht
    exact .inr ⟨.inl hrun, hconds⟩
  | pushed o1 o2 _ v _ ht =>
    obtain ⟨-, hrun, hconds⟩ := keepsControl_of_stackPush ht
    exact .inr ⟨.inl hrun, hconds⟩
  | ended _ => exact .inr ⟨.inr rfl, rfl⟩
  | _ => exact .inr ⟨.inl rfl, rfl⟩

/-- Settles O30: the records are the one before the ending and, when the instruction raises, the fatal one. -/
theorem logGrowsByAtMostTwoRecords : Obligations.LogGrowsByAtMostTwoRecords := by
  unfold Obligations.LogGrowsByAtMostTwoRecords
  intro i s t hrun h
  obtain ⟨cs, tsp, hcs, hend⟩ := exec_ending h
  rcases hend.raised_or_keeps_conds with ⟨c, hc, rfl⟩ | ⟨hrun', hconds⟩
  · refine ⟨cs ++ [c], ?_, ?_, iff_of_true rfl ⟨c, by simp, hc⟩⟩
    · rw [List.map_append, ← List.append_assoc]
      rfl
    · rcases hcs with rfl | ⟨n, rfl, hn⟩
      · exact .inr (.inl ⟨c, rfl⟩)
      · exact .inr (.inr ⟨n, c, rfl, hn, hc⟩)
  · refine ⟨cs, hconds, hcs.imp_right fun ⟨c, hc, _⟩ => .inl ⟨c, hc⟩, iff_of_false ?_ ?_⟩
    · have hs : (beforeEnding cs tsp s).run = .running := hrun
      rcases hrun' with h | h <;> simp [h, hs]
    · rcases hcs with rfl | ⟨c, rfl, hc⟩ <;> simp [*]

/-- An instruction that faults has taken its condition in a state that differs in `TSP` and the log alone. -/
theorem eq_raise_of_exec_faults {i : Instr} {s t : State} (hrun : s.run = .running) (h : exec i s = .next t)
    (hf : t.run = .halted .fault) : ∃ cs tsp c, t = (beforeEnding cs tsp s).raise c := by
  obtain ⟨cs, tsp, -, hend⟩ := exec_ending h
  have hs : (beforeEnding cs tsp s).run = .running := hrun
  rcases hend.raised_or_keeps_conds with ⟨c, -, rfl⟩ | ⟨hrun' | hrun', -⟩
  · exact ⟨cs, tsp, c, rfl⟩
  · exact nomatch hf.symm.trans (hrun'.trans hs)
  · exact nomatch hf.symm.trans hrun'

/-- Settles O31, from the state in which the condition was taken. -/
theorem faultingInstructionWritesNothing : Obligations.FaultingInstructionWritesNothing := by
  unfold Obligations.FaultingInstructionWritesNothing
  intro i s t hrun h hf
  obtain ⟨cs, tsp, c, rfl⟩ := eq_raise_of_exec_faults hrun h hf
  exact ⟨rfl, rfl, rfl, rfl, rfl, rfl, rfl, rfl, rfl, rfl⟩

theorem logGrows_of_exec {i : Instr} {s t : State} (hi : i.usesOp1 = true) (h : exec i s = .next t) : LogGrows s t := by
  obtain ⟨cs, tsp, -, hend⟩ := exec_ending h
  rcases hend.raised_or_keeps hi with ⟨c, -, rfl⟩ | ⟨hrun, hconds⟩
  · exact ⟨⟨_, List.append_assoc ..⟩, .inr rfl⟩
  · exact ⟨⟨_, hconds⟩, .inl hrun⟩

/-! ## The frames -/

/-- A read in another mode changes nothing. -/
theorem eq_of_resolveRead {o : Operand} {s t : State} {v : Word} (h : resolveRead o s = .ok (v, t))
    (ho : o.mode.isStack = false) : t = s := by
  rcases resolveRead_ok h with ⟨-, rfl⟩ | ⟨hm, -, -⟩ | ⟨hm, -, -, -⟩
  · rfl
  all_goals
    rw [hm] at ho
    cases ho

theorem mem_of_resolveRead {o : Operand} {s t : State} {v : Word} (h : resolveRead o s = .ok (v, t)) :
    t.mem = s.mem := by
  rw [(ReadStep.of_resolveRead h).eq_setTsp]
  rfl

theorem Mode.ne_stackPush {m : Mode} (h : m.isStack = false) : m ≠ .stackPush := by
  rintro rfl
  cases h

/-- What the instructions that write operand 1 leave alone but for memory and `TSP`. -/
theorem frame_of_writesOp1 {i : Instr} {s t : State} (hi : i.writesOp1 = true) (h : exec i s = .next t) :
    SameSpecials s t ∧ LogGrows s t ∧ t.pc = s.pc ∧ t.cr = s.cr ∧
      ∀ r, ¬ (i.op1.mode = .registerDirect ∧ i.op1.addr = r) → t.reg r = s.reg r := by
  obtain ⟨hspecials, hcr, hpc, -, -⟩ := onlyTheNamedInstructionsWrite i s t h
  refine ⟨hspecials, logGrows_of_exec ?_ h, hpc ?_, hcr ?_, fun r hr => reg_of_exec h fun hw => hr hw.2⟩
  · cases i <;> cases hi <;> rfl
  · cases i <;> cases hi <;> rfl
  · rintro o1 o2 rfl
    cases hi

/-- Settles O49: the memory word and `TSP` by the read and the write. -/
theorem movFrame : Obligations.MovFrame := by
  unfold Obligations.MovFrame
  intro o1 o2 s t h
  obtain ⟨hspecials, hlog, hpc, hcr, hreg⟩ := frame_of_writesOp1 rfl h
  refine ⟨hspecials, hlog, hpc, hcr, hreg, ?_⟩
  obtain ⟨c, hr, rfl⟩ | ⟨⟨v, s1⟩, hr, h⟩ := State.attempt_next.1 h
  · exact ⟨fun _ _ => rfl, fun _ _ => rfl⟩
  obtain ⟨c, hw, rfl⟩ | ⟨u, hw, ⟨⟩⟩ := State.attempt_next.1 h
  · refine ⟨fun _ ho2 => ?_, fun _ _ => ?_⟩
    · rw [eq_of_resolveRead hr ho2]; rfl
    · rw [State.raise_mem, mem_of_resolveRead hr]
  · refine ⟨fun ho1 ho2 => ?_, fun a ha => ?_⟩
    · rw [tsp_of_resolveWrite hw (Mode.ne_stackPush ho1), eq_of_resolveRead hr ho2]
    · rw [read_of_resolveWrite hw fun g hg => ha v s1 g hr hg, mem_of_resolveRead hr]

/-- The slot a pop has vacated takes a push, which restores `TSP`. -/
theorem stackPush_after_pop {s : State} (hm : s.inMemory (s.tsp.toInt - 1) = true) (v : Word) :
    ∃ m, stackPush v (s.setTsp (s.tsp - 1)) = .ok (s.setMem m) := by
  have hslot : (s.tsp - 1).toInt = s.tsp.toInt - 1 := toInt_sub_one (State.inMemory_iff.1 hm).1
  refine ⟨s.mem.write (s.tsp - 1).toInt.toNat v, stackPush_ok.2 ⟨?_, ?_⟩⟩ <;> rw [State.setTsp_tsp]
  · rw [hslot]
    exact hm
  · rw [sub_add_cancel]
    rfl

/-- Settles O50: `TSP` and the memory word by the pop and the write; after a pop the slot at `TSP` is inside memory. -/
theorem popFrame : Obligations.PopFrame := by
  unfold Obligations.PopFrame
  intro o1 o2 s t h
  obtain ⟨hspecials, hlog, hpc, hcr, hreg⟩ := frame_of_writesOp1 rfl h
  refine ⟨hspecials, hlog, hpc, hcr, hreg, ?_⟩
  obtain ⟨c, hp, rfl⟩ | ⟨⟨v, s1⟩, hp, h⟩ := State.attempt_next.1 h
  · refine ⟨fun _ => rfl, fun _ => rfl, fun hpop h0 hlt => ?_, fun _ _ => rfl⟩
    have hok := stackPop_ok.2 ⟨hpop, State.inMemory_iff.2 ⟨h0, hlt⟩, rfl, rfl⟩
    exact nomatch hp.symm.trans hok
  obtain ⟨hpop, hm, -, rfl⟩ := stackPop_ok.1 hp
  obtain ⟨h0, hlt⟩ := State.inMemory_iff.1 hm
  refine ⟨fun hle => absurd hle (by omega), fun hout => absurd hout (by omega),
    fun _ _ _ => ⟨fun hpush => ?_, fun hne => ?_⟩, fun a ha => ?_⟩
  · obtain ⟨m, a⟩ := o1
    obtain rfl : m = .stackPush := hpush
    obtain ⟨mem, hok⟩ := stackPush_after_pop hm v
    simp only [resolveWrite_stackPush, hok, State.attempt_ok] at h
    cases h
    rfl
  · obtain ⟨c, -, rfl⟩ | ⟨u, hw, ⟨⟩⟩ := State.attempt_next.1 h
    · rfl
    · exact tsp_of_resolveWrite hw hne
  · obtain ⟨c, -, rfl⟩ | ⟨u, hw, ⟨⟩⟩ := State.attempt_next.1 h
    · rfl
    · exact read_of_resolveWrite hw fun g hg => ha v _ g hp hg

/-- Settles O51: the slot and `TSP` by the read and the push. -/
theorem pushFrame : Obligations.PushFrame := by
  unfold Obligations.PushFrame
  intro o1 o2 s t h
  obtain ⟨hspecials, hcr, hpc, hregs, -⟩ := onlyTheNamedInstructionsWrite _ s t h
  refine ⟨hspecials, logGrows_of_exec rfl h, hpc rfl, hcr nofun, fun r => ?_, ?_⟩
  · rw [State.reg, hregs rfl]
    rfl
  obtain ⟨c, hr, rfl⟩ | ⟨⟨v, s1⟩, hr, h⟩ := State.attempt_next.1 h
  · exact ⟨fun _ => .inl rfl, fun _ _ => rfl⟩
  obtain ⟨c, -, rfl⟩ | ⟨u, hp, ⟨⟩⟩ := State.attempt_next.1 h
  · refine ⟨fun ho1 => .inl ?_, fun _ _ => ?_⟩
    · rw [eq_of_resolveRead hr ho1]; rfl
    · rw [State.raise_mem, mem_of_resolveRead hr]
  · obtain ⟨hm, rfl⟩ := stackPush_ok.1 hp
    obtain ⟨h0, -⟩ := State.inMemory_iff.1 hm
    refine ⟨fun ho1 => .inr ?_, fun a ha => ?_⟩
    · rw [eq_of_resolveRead hr ho1]; rfl
    · have hne := ha v s1 hr
      rw [State.setTsp_mem, State.setMem_mem, Memory.read_write_other _ _ (by omega), mem_of_resolveRead hr]

/-- Settles O52: no ending of CMP writes these, and `TSP` is moved by the reads alone. -/
theorem cmpFrame : Obligations.CmpFrame := by
  unfold Obligations.CmpFrame
  intro o1 o2 s t h
  obtain ⟨hspecials, -, hpc, hregs, hmem⟩ := onlyTheNamedInstructionsWrite _ s t h
  refine ⟨hspecials, logGrows_of_exec rfl h, hpc rfl, fun r => reg_of_exec h nofun, fun a => ?_, fun ho1 ho2 => ?_⟩
  · rw [hmem rfl nofun]
  obtain ⟨c, -, rfl⟩ | ⟨⟨v, s1⟩, hr, h⟩ := State.attempt_next.1 h
  · rfl
  obtain ⟨c, -, rfl⟩ | ⟨⟨w, s2⟩, hr2, ⟨⟩⟩ := State.attempt_next.1 h
  · rw [eq_of_resolveRead hr ho1]; rfl
  · rw [State.setCr_tsp, eq_of_resolveRead hr2 ho2, eq_of_resolveRead hr ho1]

theorem isJump_iff {i : Instr} : i.isJump = true ↔ (∃ o1 o2, i = .jmp o1 o2) ∨ i.isConditionalJump = true := by
  cases i <;> simp [Instr.isJump, Instr.isConditionalJump]

/-- A jump that is not taken raises for an undefined `CR` or changes nothing. -/
theorem exec_of_isJump {i : Instr} (hi : i.isJump = true) (s : State) :
    (takesJump i s = true ∧ exec i s = jumpTo i.op1 s) ∨
    (takesJump i s = false ∧ (exec i s = .next (s.raise (.undefinedRegister .cr)) ∨ exec i s = .next s)) := by
  rcases isJump_iff.1 hi with ⟨o1, o2, rfl⟩ | hc
  · exact .inl ⟨rfl, rfl⟩
  cases ht : takesJump i s with
  | true => exact .inl ⟨rfl, exec_of_takesJump ht⟩
  | false =>
    by_cases hcr : s.cr = .undef
    · exact .inr ⟨rfl, .inl (exec_of_cr_undef hc hcr)⟩
    · exact .inr ⟨rfl, .inr (exec_of_not_takesJump hc hcr ht)⟩

/-- Settles O53: no ending of a jump writes these, and `TSP` is moved by the read alone. -/
theorem jumpFrame : Obligations.JumpFrame := by
  unfold Obligations.JumpFrame
  intro i s t hi h
  have hcmp : ∀ o1 o2, i ≠ .cmp o1 o2 := by
    rintro o1 o2 rfl
    cases hi
  have hpush : ∀ o1 o2, i ≠ .push o1 o2 := by
    rintro o1 o2 rfl
    cases hi
  have huses : i.usesOp1 = true := by cases i <;> cases hi <;> rfl
  have hwrites : i.writesOp1 = false := by cases i <;> cases hi <;> rfl
  obtain ⟨hspecials, hcr, -, hregs, hmem⟩ := onlyTheNamedInstructionsWrite i s t h
  refine ⟨hspecials, logGrows_of_exec huses h, hcr hcmp, fun r => reg_of_exec h ?_, fun a => ?_, fun ho1 => ?_⟩
  · simp [hwrites]
  · rw [hmem hwrites hpush]
  rcases exec_of_isJump hi s with ⟨-, hexec⟩ | ⟨-, hexec | hexec⟩ <;> rw [hexec] at h
  · obtain ⟨c, -, rfl⟩ | ⟨⟨v, s1⟩, hr, ⟨⟩⟩ := State.attempt_next.1 h
    · rfl
    · rw [State.setPc_tsp, eq_of_resolveRead hr ho1]
  · cases h
    rfl
  · cases h
    rfl

/-! ## The arithmetic frame -/

theorem arithmeticRuns_of_mem {i : Operand → Operand → Instr} (hi : i ∈ [Instr.add, .sub, .mul, .div, .mod]) :
    ∃ op extra, ArithmeticRuns i op extra := by
  simp only [List.mem_cons, List.not_mem_nil, or_false] at hi
  rcases hi with rfl | rfl | rfl | rfl | rfl
  · exact ⟨_, _, add_runs⟩
  · exact ⟨_, _, sub_runs⟩
  · exact ⟨_, _, mul_runs⟩
  · exact ⟨_, _, div_runs⟩
  · exact ⟨_, _, mod_runs⟩

theorem writesOp1_of_mem {i : Operand → Operand → Instr} (hi : i ∈ [Instr.add, .sub, .mul, .div, .mod])
    (o1 o2 : Operand) : (i o1 o2).writesOp1 = true ∧ (i o1 o2).op1 = o1 := by
  simp only [List.mem_cons, List.not_mem_nil, or_false] at hi
  rcases hi with rfl | rfl | rfl | rfl | rfl <;> exact ⟨rfl, rfl⟩

theorem afterRead_of_not_isStack {o : Operand} (ho : o.mode.isStack = false) (s : State) : afterRead o s = s := by
  unfold afterRead tspAfterRead
  cases hm : o.mode <;> simp [hm, Mode.isStack] at ho ⊢

/-- The records in the log do not move the target (R113 to R120 read no log). -/
theorem writeTarget_appendConds (o : Operand) (cs : List Condition) (s : State) :
    writeTarget o (appendConds cs s) = writeTarget o s := rfl

theorem address_appendConds (g : Target) (cs : List Condition) (s : State) :
    g.address (appendConds cs s) = g.address s := by
  cases g <;> rfl

theorem ArithmeticOutcome.tsp_eq {o1 o2 : Operand} {z : Int} {cs : List Condition} {s t : State}
    (h : ArithmeticOutcome o1 o2 z cs s t) (ho1 : o1.mode.isStack = false) (ho2 : o2.mode.isStack = false) :
    t.tsp = s.tsp := by
  have hread : afterRead o1 s = s := afterRead_of_not_isStack ho1 s
  have hboth : bothRead o1 o2 s = s := by rw [bothRead, hread, afterRead_of_not_isStack ho2]
  cases h with
  | firstRaised c _ => rfl
  | secondRaised _ c _ => rw [hread]; rfl
  | writeRaised _ _ c _ => rw [hboth]; rfl
  | wrote _ _ hw => rw [tsp_of_resolveWrite (resolveWrite_of_none hw) (Mode.ne_stackPush ho1), hboth]; rfl

theorem ArithmeticOutcome.read_eq {o1 o2 : Operand} {z : Int} {cs : List Condition} {s t : State}
    (h : ArithmeticOutcome o1 o2 z cs s t) {a : Nat}
    (ha : ∀ v1 s1 v2 s2 g, resolveRead o1 s = .ok (v1, s1) → resolveRead o2 s1 = .ok (v2, s2) →
      writeTarget o1 s2 = .ok g → g.address s2 ≠ some (a : Int)) : t.mem.read a = s.mem.read a := by
  cases h with
  | wrote h1 h2 hw =>
    refine read_of_resolveWrite (resolveWrite_of_none hw) fun g hg => ?_
    rw [writeTarget_appendConds] at hg
    rw [address_appendConds]
    exact ha _ _ _ _ g (resolveRead_of_none h1) (resolveRead_of_none h2) hg
  | _ => rfl

/-- Settles O48: the memory word and `TSP` by the outcome of the instruction. -/
theorem arithmeticFrame : Obligations.ArithmeticFrame := by
  unfold Obligations.ArithmeticFrame
  intro i o1 o2 s t hi h
  obtain ⟨op, extra, hruns⟩ := arithmeticRuns_of_mem hi
  obtain ⟨hwrites, hop1⟩ := writesOp1_of_mem hi o1 o2
  obtain ⟨hspecials, hlog, hpc, hcr, hreg⟩ := frame_of_writesOp1 hwrites h
  rw [hop1] at hreg
  have hout := arithmeticOutcome_of_next hruns h
  exact ⟨hspecials, hlog, hpc, hcr, hreg, hout.tsp_eq, fun a => hout.read_eq⟩

end Sys2Proof.Machine
end

section
/-! The step (spec/40_cycle.md R80 to R86): an equation for each way the stages before execution come out, and that every
running block takes its step. -/

namespace Sys2Proof.Machine

open Sys2Proof.Claims

/-! ## The stages before execution -/

theorem step_of_not_inWindow {s : State} (hrun : s.run = .running) (hw : s.inWindow = false) :
    step s = .next (s.halt .windowExit) := by
  simp only [step, hrun, fetch, hw, Bool.false_eq_true, ↓reduceIte]

theorem step_of_not_inMemory {s : State} (hrun : s.run = .running) (hw : s.inWindow = true)
    (hm : s.inMemory s.pc.toInt = false) : step s = .next (s.raiseAt s.pc.toInt (.outOfRange s.pc.toInt)) := by
  simp only [step, hrun, fetch, hw, memRead_error.2 ⟨hm, rfl⟩, ↓reduceIte]

theorem step_of_zero {s : State} (hrun : s.run = .running) (hw : s.inWindow = true) (hm : s.inMemory s.pc.toInt = true)
    (hz : s.cell s.pc.toInt = 0) : step s = .next ((latch 0 s).halt .zeroWord) := by
  have hread : memRead s.pc.toInt s = .ok 0 := memRead_ok.2 ⟨hm, hz.symm⟩
  simp only [step, hrun, fetch, hw, hread, ↓reduceIte]

theorem step_of_decode_error {s : State} {e : DecodeReject} (hrun : s.run = .running) (hw : s.inWindow = true)
    (hm : s.inMemory s.pc.toInt = true) (hz : s.cell s.pc.toInt ≠ 0) (hd : decode (s.cell s.pc.toInt) = .error e) :
    step s = .next ((executing s).raise (.decodeFailure (s.cell s.pc.toInt))) := by
  have hread : memRead s.pc.toInt s = .ok (s.cell s.pc.toInt) := memRead_ok.2 ⟨hm, rfl⟩
  simp only [step, hrun, fetch, hw, hread, if_neg hz, decodeStage, hd, ↓reduceIte]
  rfl

theorem step_of_decode_ok {s : State} {i : Instr} (hrun : s.run = .running) (hw : s.inWindow = true)
    (hm : s.inMemory s.pc.toInt = true) (hz : s.cell s.pc.toInt ≠ 0) (hd : decode (s.cell s.pc.toInt) = .ok i) :
    step s = exec i (executing s) := by
  have hread : memRead s.pc.toInt s = .ok (s.cell s.pc.toInt) := memRead_ok.2 ⟨hm, rfl⟩
  simp only [step, hrun, fetch, hw, hread, if_neg hz, decodeStage, hd, ↓reduceIte]
  rfl

/-- `PC` has been advanced by one, so the instruction's address is where it was fetched (R85). -/
theorem instrAddr_executing (s : State) : (executing s).instrAddr = s.pc.toInt :=
  congrArg BitVec.toInt (add_sub_cancel_right s.pc 1)

theorem ne_zero_of_decode_error {w : Word} {e : DecodeReject} (h : decode w = .error e) : w ≠ 0 := by
  rintro rfl
  have hadd : decode 0 = .ok (.add .missing .missing) := by decide
  exact nomatch h.symm.trans hadd

/-- Settles O4, as `step_eq_exec`. -/
theorem stepRunsTheDecodedInstruction : Obligations.StepRunsTheDecodedInstruction := by
  unfold Obligations.StepRunsTheDecodedInstruction
  exact fun s i => step_eq_exec

/-- Settles O5: the window check fails first. -/
theorem stepHaltsOutsideTheWindow : Obligations.StepHaltsOutsideTheWindow := by
  unfold Obligations.StepHaltsOutsideTheWindow
  intro s hrun hw
  exact step_of_not_inWindow hrun (Bool.eq_false_iff.2 fun hin => hw (State.inWindow_iff.1 hin))

/-- Settles O6: the window lies inside memory, so the fetch succeeds and the test for zero decides. -/
theorem stepHaltsOnAZeroWord : Obligations.StepHaltsOnAZeroWord := by
  unfold Obligations.StepHaltsOnAZeroWord
  intro s hcfg hrun hw hz
  exact step_of_zero hrun (State.inWindow_iff.2 hw) (inMemory_of_inWindow hcfg hw) hz

/-- Settles O7: the rejected word is not zero, and the record holds the address it was fetched from. -/
theorem stepRaisesDecodeFailure : Obligations.StepRaisesDecodeFailure := by
  unfold Obligations.StepRaisesDecodeFailure
  intro s e hcfg hrun hw hd
  have hz := ne_zero_of_decode_error hd
  rw [step_of_decode_error hrun (State.inWindow_iff.2 hw) (inMemory_of_inWindow hcfg hw) hz hd, State.raise,
    instrAddr_executing]
  rfl

/-- Settles O8: the run state is tested before anything else. -/
theorem haltedBlockTakesNoStep : Obligations.HaltedBlockTakesNoStep := by
  unfold Obligations.HaltedBlockTakesNoStep
  intro s r hr
  have hstep : step s = .fault (.alreadyHalted r) := by simp only [step, hr]
  exact ⟨hstep, fun t => by rw [hstep]; exact nofun⟩

/-- Settles O47: FUNC resolves no operand, so it ends the program as EOP does. -/
theorem funcHaltsTheBlock : Obligations.FuncHaltsTheBlock := by
  unfold Obligations.FuncHaltsTheBlock
  exact ⟨hasOpcode_of_opcode fun _ _ => rfl, rfl, fun _ _ => exec_of_usesOp1_eq_false rfl,
    fun _ _ _ hcfg hrun hw hd => step_of_usesOp1_eq_false hcfg hrun hw hd rfl, fun _ _ => decode_error_of_reserved⟩

/-! ## Totality -/

/-- A chain of accesses answers a next state when its continuation does: a condition is taken in a next state. -/
theorem attempt_answers {α : Type} {s : State} {r : Except Condition α} {k : α → Out} (h : ∀ a, ∃ t, k a = .next t) :
    ∃ t, s.attempt r k = .next t := by
  cases r with
  | error c => exact ⟨_, rfl⟩
  | ok a => exact h a

theorem arithmetic_answers (op : Int → Int → Int) (divides : Bool) (o1 o2 : Operand) (s : State) :
    ∃ t, arithmetic op divides o1 o2 s = .next t :=
  attempt_answers fun _ => attempt_answers fun _ => attempt_answers fun _ => ⟨_, rfl⟩

theorem jumpTo_answers (o : Operand) (s : State) : ∃ t, jumpTo o s = .next t :=
  attempt_answers fun _ => ⟨_, rfl⟩

theorem jump_answers {i : Instr} (hi : i.isJump = true) (s : State) : ∃ t, exec i s = .next t := by
  rcases exec_of_isJump hi s with ⟨-, h⟩ | ⟨-, h | h⟩ <;> rw [h]
  · exact jumpTo_answers _ s
  · exact ⟨_, rfl⟩
  · exact ⟨_, rfl⟩

/-- No instruction is stuck or refused. -/
theorem exec_answers (i : Instr) (s : State) : ∃ t, exec i s = .next t := by
  cases i with
  | add o1 o2 => exact arithmetic_answers _ _ o1 o2 s
  | sub o1 o2 => exact arithmetic_answers _ _ o1 o2 s
  | mul o1 o2 => exact arithmetic_answers _ _ o1 o2 s
  | div o1 o2 => exact arithmetic_answers _ _ o1 o2 s
  | mod o1 o2 => exact arithmetic_answers _ _ o1 o2 s
  | cmp o1 o2 => exact attempt_answers fun _ => attempt_answers fun _ => ⟨_, rfl⟩
  | mov o1 o2 => exact attempt_answers fun _ => attempt_answers fun _ => ⟨_, rfl⟩
  | push o1 o2 => exact attempt_answers fun _ => attempt_answers fun _ => ⟨_, rfl⟩
  | pop o1 o2 => exact attempt_answers fun _ => attempt_answers fun _ => ⟨_, rfl⟩
  | eop o1 o2 => exact ⟨_, rfl⟩
  | func o1 o2 => exact ⟨_, rfl⟩
  | _ => exact jump_answers rfl s

/-- Settles O9: each way the stages before execution come out is a next state or an instruction, which answers one. -/
theorem runningBlockAlwaysSteps : Obligations.RunningBlockAlwaysSteps := by
  unfold Obligations.RunningBlockAlwaysSteps
  intro s hrun
  cases hw : s.inWindow with
  | false => exact ⟨_, step_of_not_inWindow hrun hw⟩
  | true =>
    cases hm : s.inMemory s.pc.toInt with
    | false => exact ⟨_, step_of_not_inMemory hrun hw hm⟩
    | true =>
      by_cases hz : s.cell s.pc.toInt = 0
      · exact ⟨_, step_of_zero hrun hw hm hz⟩
      · cases hd : decode (s.cell s.pc.toInt) with
        | error e => exact ⟨_, step_of_decode_error hrun hw hm hz hd⟩
        | ok i =>
          rw [step_of_decode_ok hrun hw hm hz hd]
          exact exec_answers i _

/-! ## The program counter -/

/-- Only a jump that is taken moves `PC`. -/
theorem pc_of_not_takesJump {i : Instr} {s t : State} (ht : takesJump i s = false) (h : exec i s = .next t) :
    t.pc = s.pc := by
  cases hi : i.isJump with
  | false =>
    obtain ⟨-, -, hpc, -⟩ := onlyTheNamedInstructionsWrite i s t h
    exact hpc hi
  | true =>
    rcases exec_of_isJump hi s with ⟨htrue, -⟩ | ⟨-, hexec | hexec⟩
    · rw [ht] at htrue
      cases htrue
    · cases hexec.symm.trans h
      rfl
    · cases hexec.symm.trans h
      rfl

theorem pc_of_takesJump {i : Instr} {s t : State} (ht : takesJump i s = true) (hr : readFault i.op1 s = none)
    (h : exec i s = .next t) : t.pc = readValue i.op1 s := by
  rw [exec_of_takesJump ht, jumpTo_of_none hr] at h
  cases h
  rfl

/-- The last record of a step that faults holds the address its word was fetched from. -/
theorem fault_record_of_step {s t : State} (hcfg : s.cfg.wf = true) (hrun : s.run = .running) (hw : InWindow s)
    (hz : s.cell s.pc.toInt ≠ 0) (h : step s = .next t) (hf : t.run = .halted .fault) :
    ∃ r, t.conds.getLast? = some r ∧ r.iaddr = s.pc.toInt := by
  cases hd : decode (s.cell s.pc.toInt) with
  | error e =>
    rw [step_of_decode_error hrun (State.inWindow_iff.2 hw) (inMemory_of_inWindow hcfg hw) hz hd] at h
    cases h
    exact ⟨_, List.getLast?_concat, instrAddr_executing s⟩
  | ok i =>
    rw [step_eq_exec hcfg hrun hw hz hd] at h
    obtain ⟨cs, tsp, c, rfl⟩ := eq_raise_of_exec_faults (s := executing s) hrun h hf
    exact ⟨_, List.getLast?_concat, instrAddr_executing s⟩

/-- Settles O10: `PC` by the jump taken or not, at a halt by R88's rows, and the address in the last record. -/
theorem programCounterAdvancesFirst : Obligations.ProgramCounterAdvancesFirst := by
  unfold Obligations.ProgramCounterAdvancesFirst
  intro s t hcfg hrun hw hz h
  obtain ⟨-, -, -, -, -, heop, hfault⟩ := haltsForExactlyTheseCauses s t hcfg hrun h
  refine ⟨fun i hd => ?_, fun hf => ⟨hfault hf, fault_record_of_step hcfg hrun hw hz h hf⟩, fun he => (heop he).1⟩
  have hexec := step_eq_exec hcfg hrun hw hz hd
  have hnext : exec i (executing s) = .next t := hexec.symm.trans h
  exact ⟨hexec, rfl, fun ht hr => pc_of_takesJump ht hr hnext, fun ht => pc_of_not_takesJump ht hnext⟩

/-! ## Registers stay defined -/

theorem reg_ne_undef_of_resolveWrite {o : Operand} {v : Word} {s t : State} (h : resolveWrite o v s = .ok t)
    {r : AddrField} (hr : s.reg r ≠ .undef) : t.reg r ≠ .undef := by
  rcases resolveWrite_ok h with ⟨-, -, rfl⟩ | ⟨ea, -, -, rfl⟩ | ⟨-, -, -, rfl⟩
  · rw [State.setReg_reg]
    split
    · exact nofun
    · exact hr
  · exact hr
  · exact hr

theorem Ending.stays_defined {i : Instr} {u t : State} (h : Ending i u t) :
    (∀ r, u.reg r ≠ .undef → t.reg r ≠ .undef) ∧ (u.cr ≠ .undef → t.cr ≠ .undef) := by
  cases h with
  | wrote _ v _ ht =>
    rw [(sameSpecials_of_resolveWrite ht).2]
    exact ⟨fun r => reg_ne_undef_of_resolveWrite ht, id⟩
  | pushed o1 o2 _ v _ ht =>
    obtain ⟨-, rfl⟩ := stackPush_ok.1 ht
    exact ⟨fun r => id, id⟩
  | compared o1 o2 _ c => exact ⟨fun r => id, fun _ => nofun⟩
  | _ => exact ⟨fun r => id, id⟩

/-- Settles O55: the fetch latches a word in `IR`, and no ending clears a register or `CR`. -/
theorem definedRegistersStayDefined : Obligations.DefinedRegistersStayDefined := by
  unfold Obligations.DefinedRegistersStayDefined
  intro s t h
  obtain ⟨-, ⟨-, rfl⟩ | ⟨-, -, rfl⟩ | ⟨-, -, -, rfl⟩ | ⟨w, e, -, -, -, -, -, rfl⟩ | ⟨w, i, -, -, -, -, -, hexec⟩⟩ :=
    step_cases h
  · exact ⟨fun r => id, id, id⟩
  · exact ⟨fun r => id, id, id⟩
  · exact ⟨fun r => id, id, fun _ => nofun⟩
  · exact ⟨fun r => id, id, fun _ => nofun⟩
  · obtain ⟨cs, tsp, -, hend⟩ := exec_ending hexec
    obtain ⟨hreg, hcr⟩ := hend.stays_defined
    obtain ⟨-, hir, -⟩ := hend.sameSpecials
    exact ⟨hreg, hcr, fun _ => by rw [hir]; exact nofun⟩

end Sys2Proof.Machine
end

section
/-! What no instruction reads (spec/10_state.md R17, R19, R22): a change of such state commutes with every operand access,
every instruction and the step. `IR`, `BR` and `I2` are one case, the log's older records the other. -/

namespace Sys2Proof.Machine

open Sys2Proof.Claims

/-- `f` changes nothing an instruction reads, and commutes with every field update an instruction makes. -/
structure Unread (f : State → State) : Prop where
  cfg : ∀ s, (f s).cfg = s.cfg
  reg : ∀ s i, (f s).reg i = s.reg i
  pc : ∀ s, (f s).pc = s.pc
  spr : ∀ s, (f s).spr = s.spr
  tsp : ∀ s, (f s).tsp = s.tsp
  i1 : ∀ s, (f s).i1 = s.i1
  cr : ∀ s, (f s).cr = s.cr
  mem : ∀ s, (f s).mem = s.mem
  run : ∀ s, (f s).run = s.run
  setReg : ∀ s i r, (f s).setReg i r = f (s.setReg i r)
  setPc : ∀ s v, (f s).setPc v = f (s.setPc v)
  setTsp : ∀ s v, (f s).setTsp v = f (s.setTsp v)
  setCr : ∀ s r, (f s).setCr r = f (s.setCr r)
  setMem : ∀ s m, (f s).setMem m = f (s.setMem m)
  setRun : ∀ s r, (f s).setRun r = f (s.setRun r)
  addRecord : ∀ s r, (f s).addRecord r = f (s.addRecord r)

theorem unread_withInert (ir br i2 : Reg) : Unread (State.withInert ir br i2) := by
  constructor <;> intros <;> rfl

/-- The state with `rs` in front of its log. -/
def withOlderConds (rs : List CondRecord) (s : State) : State := { s with conds := rs ++ s.conds }

theorem unread_withOlderConds (rs : List CondRecord) : Unread (withOlderConds rs) := by
  constructor
  case addRecord =>
    intro s r
    simp [withOlderConds, State.addRecord]
  all_goals
    intros
    rfl

/-- The answer with its next state changed by `f`. -/
def mapNext (f : State → State) : Out → Out
  | .next t => .next (f t)
  | .fault r => .fault r
  | .refused r => .refused r

section
variable {f : State → State}

/-! ## Operand accesses -/

theorem Unread.cell (hf : Unread f) (s : State) (a : Int) : (f s).cell a = s.cell a := by
  rw [State.cell, hf.mem, State.cell]

theorem Unread.cellFault (hf : Unread f) (s : State) (a : Int) : cellFault a (f s) = cellFault a s := by
  rw [Machine.cellFault, hf.cfg, Machine.cellFault]

theorem Unread.regFault (hf : Unread f) (s : State) (i : AddrField) : regFault i (f s) = regFault i s := by
  rw [Machine.regFault, hf.cfg, hf.reg, Machine.regFault]

theorem Unread.memoryAddress (hf : Unread f) (o : Operand) (s : State) : memoryAddress o (f s) = memoryAddress o s := by
  simp only [Machine.memoryAddress, hf.reg, hf.cell, hf.i1, hf.tsp]

theorem Unread.readFault (hf : Unread f) (o : Operand) (s : State) : readFault o (f s) = readFault o s := by
  simp only [Machine.readFault, hf.regFault, hf.cellFault, hf.memoryAddress, hf.i1, hf.tsp, hf.spr]

theorem Unread.readValue (hf : Unread f) (o : Operand) (s : State) : readValue o (f s) = readValue o s := by
  simp only [Machine.readValue, hf.reg, hf.cell, hf.memoryAddress]

theorem Unread.afterRead (hf : Unread f) (o : Operand) (s : State) : afterRead o (f s) = f (afterRead o s) := by
  have htsp : tspAfterRead o (f s) = tspAfterRead o s := by simp only [tspAfterRead, hf.tsp]
  change (f s).setTsp (tspAfterRead o (f s)) = f (s.setTsp (tspAfterRead o s))
  rw [htsp, hf.setTsp]

theorem Unread.writeFault (hf : Unread f) (o : Operand) (s : State) : writeFault o (f s) = writeFault o s := by
  simp only [Machine.writeFault, hf.regFault, hf.cellFault, hf.memoryAddress, hf.cfg]

theorem Unread.storeCell (hf : Unread f) (a : Nat) (v : Word) (s : State) :
    (f s).setMem ((f s).mem.write a v) = f (s.setMem (s.mem.write a v)) := by
  rw [hf.mem, hf.setMem]

theorem Unread.afterWrite (hf : Unread f) (o : Operand) (v : Word) (s : State) :
    afterWrite o v (f s) = f (afterWrite o v s) := by
  unfold Machine.afterWrite
  rw [hf.memoryAddress]
  cases o.mode with
  | registerDirect => exact hf.setReg s o.addr _
  | stackPush =>
    change ((f s).setMem ((f s).mem.write (f s).tsp.toInt.toNat v)).setTsp ((f s).tsp + 1) = _
    rw [hf.storeCell, hf.tsp, hf.setTsp]
    rfl
  | registerIndirect => exact hf.storeCell _ v s
  | direct => exact hf.storeCell _ v s
  | indirect => exact hf.storeCell _ v s
  | indexed => rfl
  | immediate => rfl
  | stackPop => rfl

theorem Unread.resolveRead (hf : Unread f) (o : Operand) (s : State) :
    resolveRead o (f s) = (resolveRead o s).map fun p => (p.1, f p.2) := by
  rw [resolveRead_eq_answer, resolveRead_eq_answer, answer_map, hf.readFault, hf.readValue, hf.afterRead]

theorem Unread.resolveWrite (hf : Unread f) (o : Operand) (v : Word) (s : State) :
    resolveWrite o v (f s) = (resolveWrite o v s).map f := by
  rw [resolveWrite_eq_answer, resolveWrite_eq_answer, answer_map, hf.writeFault, hf.afterWrite]

theorem Unread.stackPush (hf : Unread f) (v : Word) (s : State) : stackPush v (f s) = (stackPush v s).map f := by
  simpa only [resolveWrite_stackPush] using hf.resolveWrite ⟨.stackPush, 0⟩ v s

theorem Unread.stackPop (hf : Unread f) (s : State) : stackPop (f s) = (stackPop s).map fun p => (p.1, f p.2) :=
  hf.resolveRead ⟨.stackPop, 0⟩ s

/-! ## Conditions -/

theorem Unread.report (hf : Unread f) (c : Condition) (s : State) : (f s).report c = f (s.report c) := by
  rw [State.report, State.instrAddr, hf.pc, hf.addRecord]
  rfl

theorem Unread.raiseAt (hf : Unread f) (a : Int) (c : Condition) (s : State) :
    (f s).raiseAt a c = f (s.raiseAt a c) := by
  rw [State.raiseAt, State.halt, hf.addRecord, hf.setRun]
  rfl

theorem Unread.raise (hf : Unread f) (c : Condition) (s : State) : (f s).raise c = f (s.raise c) := by
  rw [State.raise, State.instrAddr, hf.pc, hf.raiseAt]
  rfl

theorem Unread.reportIf (hf : Unread f) (p : Bool) (c : Condition) (s : State) :
    (f s).reportIf p c = f (s.reportIf p c) := by
  cases p with
  | false => rfl
  | true => exact hf.report c s

theorem Unread.arithReports (hf : Unread f) (divides : Bool) (o1 o2 : Operand) (b z : Int) (s : State) :
    arithReports divides o1 o2 b z (f s) = f (arithReports divides o1 o2 b z s) := by
  rw [Machine.arithReports, hf.reportIf, hf.reportIf]
  rfl

/-- An access and what follows it commute with `f` when each does. -/
theorem Unread.attempt (hf : Unread f) {α : Type} {s : State} {r r' : Except Condition α} {k k' : α → Out} {g : α → α}
    (hr : r' = r.map g) (hk : ∀ a, k' (g a) = mapNext f (k a)) : (f s).attempt r' k' = mapNext f (s.attempt r k) := by
  subst hr
  cases r with
  | error c => exact congrArg _ (hf.raise c s)
  | ok a => exact hk a

/-! ## Instructions -/

theorem Unread.arithmetic (hf : Unread f) (op : Int → Int → Int) (divides : Bool) (o1 o2 : Operand) (s : State) :
    arithmetic op divides o1 o2 (f s) = mapNext f (arithmetic op divides o1 o2 s) := by
  refine hf.attempt (hf.resolveRead o1 s) fun (a, s1) => hf.attempt (hf.resolveRead o2 s1) fun (b, s2) => ?_
  simp only [hf.arithReports]
  exact hf.attempt (hf.resolveWrite o1 _ _) fun _ => rfl

theorem Unread.jumpTo (hf : Unread f) (o : Operand) (s : State) : jumpTo o (f s) = mapNext f (jumpTo o s) :=
  hf.attempt (hf.resolveRead o s) fun (v, s1) => congrArg _ (hf.setPc s1 v)

theorem Unread.conditionalJump (hf : Unread f) (cond : Comparison → Bool) (o : Operand) (s : State) :
    conditionalJump cond o (f s) = mapNext f (conditionalJump cond o s) := by
  unfold Machine.conditionalJump
  rw [hf.cr]
  cases s.cr with
  | undef => exact congrArg _ (hf.raise _ s)
  | holds c =>
    cases hc : cond c with
    | false => simp only [hc]; rfl
    | true => simpa only [hc, ↓reduceIte] using hf.jumpTo o s

theorem Unread.exec (hf : Unread f) (i : Instr) (s : State) : exec i (f s) = mapNext f (exec i s) := by
  cases i with
  | add o1 o2 => exact hf.arithmetic _ _ o1 o2 s
  | sub o1 o2 => exact hf.arithmetic _ _ o1 o2 s
  | mul o1 o2 => exact hf.arithmetic _ _ o1 o2 s
  | div o1 o2 =>
    change Machine.arithmetic (divResult (f s).cfg.divRounding) true o1 o2 (f s) = _
    rw [hf.cfg]
    exact hf.arithmetic _ _ o1 o2 s
  | mod o1 o2 =>
    change Machine.arithmetic (modResult (f s).cfg.divRounding) true o1 o2 (f s) = _
    rw [hf.cfg]
    exact hf.arithmetic _ _ o1 o2 s
  | cmp o1 o2 =>
    exact hf.attempt (hf.resolveRead o1 s) fun (_, s1) => hf.attempt (hf.resolveRead o2 s1) fun (_, s2) =>
      congrArg _ (hf.setCr s2 _)
  | mov o1 o2 =>
    exact hf.attempt (hf.resolveRead o2 s) fun (v, s1) => hf.attempt (hf.resolveWrite o1 v s1) fun _ => rfl
  | push o1 o2 =>
    exact hf.attempt (hf.resolveRead o1 s) fun (v, s1) => hf.attempt (hf.stackPush v s1) fun _ => rfl
  | pop o1 o2 =>
    exact hf.attempt (hf.stackPop s) fun (v, s1) => hf.attempt (hf.resolveWrite o1 v s1) fun _ => rfl
  | jmp o1 o2 => exact hf.jumpTo o1 s
  | jeq o1 o2 => exact hf.conditionalJump _ o1 s
  | jne o1 o2 => exact hf.conditionalJump _ o1 s
  | jlt o1 o2 => exact hf.conditionalJump _ o1 s
  | jle o1 o2 => exact hf.conditionalJump _ o1 s
  | jgt o1 o2 => exact hf.conditionalJump _ o1 s
  | jge o1 o2 => exact hf.conditionalJump _ o1 s
  | eop o1 o2 => exact congrArg Host.Outcome.next (hf.setRun s (.halted .eop))
  | func o1 o2 => exact congrArg Host.Outcome.next (hf.setRun s (.halted .eop))

theorem Unread.exec_next (hf : Unread f) {i : Instr} {s t : State} (h : Machine.exec i s = .next t) :
    Machine.exec i (f s) = .next (f t) := by
  rw [hf.exec, h]
  rfl

/-! ## The step -/

/-- The fetch overwrites `IR`, so after it the two blocks may differ by another such change, `g w`. -/
theorem Unread.step_next (hf : Unread f) {g : Word → State → State} (hg : ∀ w, Unread (g w))
    (hlatch : ∀ w s, latch w (f s) = g w (latch w s)) {s t : State} (h : step s = .next t) :
    ∃ f' : State → State, (f' = f ∨ ∃ w, f' = g w) ∧ step (f s) = .next (f' t) := by
  have hwindow : (f s).inWindow = s.inWindow := by rw [State.inWindow, hf.cfg, hf.pc, State.inWindow]
  have hmemory : (f s).inMemory (f s).pc.toInt = s.inMemory s.pc.toInt := by rw [hf.pc, State.inMemory_congr (hf.cfg s)]
  have hcell : (f s).cell (f s).pc.toInt = s.cell s.pc.toInt := by rw [hf.pc, hf.cell]
  have hexecuting : executing (f s) = g (s.cell s.pc.toInt) (executing s) := by
    change advancePc (latch ((f s).cell (f s).pc.toInt) (f s)) = _
    rw [hcell, hlatch, advancePc, (hg _).pc, (hg _).setPc]
    rfl
  obtain ⟨hrun, ⟨hw, rfl⟩ | ⟨hw, hm, rfl⟩ | ⟨hw, hm, hz, rfl⟩ | ⟨w, e, hw, hm, rfl, hz, hd, rfl⟩ |
    ⟨w, i, hw, hm, rfl, hz, hd, hexec⟩⟩ := step_cases h <;> rw [← hf.run] at hrun <;> rw [← hwindow] at hw
  · refine ⟨f, .inl rfl, ?_⟩
    rw [step_of_not_inWindow hrun hw, State.halt, hf.setRun]
    rfl
  all_goals rw [← hmemory] at hm
  · refine ⟨f, .inl rfl, ?_⟩
    rw [step_of_not_inMemory hrun hw hm, hf.pc, hf.raiseAt]
  · refine ⟨g 0, .inr ⟨0, rfl⟩, ?_⟩
    rw [step_of_zero hrun hw hm (hcell.trans hz), hlatch, State.halt, (hg 0).setRun]
    rfl
  · refine ⟨g (s.cell s.pc.toInt), .inr ⟨_, rfl⟩, ?_⟩
    rw [step_of_decode_error hrun hw hm (hcell.trans_ne hz) ((congrArg decode hcell).trans hd), hexecuting, hcell,
      (hg _).raise]
    rfl
  · refine ⟨g (s.cell s.pc.toInt), .inr ⟨_, rfl⟩, ?_⟩
    rw [step_of_decode_ok hrun hw hm (hcell.trans_ne hz) ((congrArg decode hcell).trans hd), hexecuting]
    exact (hg _).exec_next hexec

end

/-- Settles O56: the change of the three registers is unread, and after a fetch both blocks hold the same word in `IR`. -/
theorem inertRegistersInfluenceNothing : Obligations.InertRegistersInfluenceNothing := by
  unfold Obligations.InertRegistersInfluenceNothing
  constructor
  · intro i s t ir br i2 h
    exact (unread_withInert ir br i2).exec_next h
  · intro s t ir br i2 h
    obtain ⟨f', rfl | ⟨w, rfl⟩, hstep⟩ := (unread_withInert ir br i2).step_next
      (g := fun w => State.withInert (.word w) br i2) (fun w => unread_withInert (.word w) br i2) (fun _ _ => rfl) h
    · exact ⟨ir, hstep⟩
    · exact ⟨.word w, hstep⟩

/-- Settles O57: the change of the older records is unread, and the fetch leaves it as it is. -/
theorem logInfluencesNothing : Obligations.LogInfluencesNothing := by
  unfold Obligations.LogInfluencesNothing
  intro s t rs h
  obtain ⟨f', hf', hstep⟩ := (unread_withOlderConds rs).step_next (g := fun _ => withOlderConds rs)
    (fun _ => unread_withOlderConds rs) (fun _ _ => rfl) h
  obtain rfl : f' = withOlderConds rs := hf'.elim id fun ⟨_, hw⟩ => hw
  exact hstep

end Sys2Proof.Machine
end

section
/-! Reset and the load (spec/10_state.md R24; spec/70_reset_and_hazards.md R230, R231): what the state a run starts from
holds, and that it meets the invariant. -/

namespace Sys2Proof.Machine

open Sys2Proof.Claims

/-! ## Reset -/

/-- An address of a legal configuration is a non-negative signed word (R7). -/
theorem toInt_ofNat_of_le {n : Nat} (h : n ≤ 2147483647) : (BitVec.ofNat 32 n).toInt = n := by
  rw [BitVec.toInt_ofNat']
  exact Int.bmod_eq_of_le (by omega) (by omega)

@[simp] theorem resetFor_reg (c : Config) (i : AddrField) : (State.resetFor c).reg i = .undef :=
  Vector.getElem_replicate i.isLt

/-- Settles O12: the fields of the reset state, and those of the reference configuration. -/
theorem resetHoldsTheStatedValues : Obligations.ResetHoldsTheStatedValues := by
  unfold Obligations.ResetHoldsTheStatedValues
  refine ⟨fun s => ?_, rfl, rfl, rfl, rfl, rfl, rfl, rfl⟩
  exact ⟨rfl, rfl, rfl, rfl, resetFor_reg s.cfg, rfl, rfl, rfl, rfl, rfl, fun _ => rfl, rfl, rfl⟩

theorem resetFor_inv {c : Config} (hc : c.wf = true) : (State.resetFor c).Inv := by
  obtain ⟨-, hsize, -, -, hstack, -, -⟩ := Config.wf_iff.1 hc
  have hbase : (State.resetFor c).spr.toInt = c.stackBase := toInt_ofNat_of_le (by omega)
  have htop : (State.resetFor c).spr.toInt ≤ c.memSize := by omega
  exact ⟨hc, rfl, nofun, hbase, le_rfl, htop, fun i _ => resetFor_reg c i, nofun⟩

/-- Settles O13: the reference configuration is legal. -/
theorem resetMeetsTheInvariant : Obligations.ResetMeetsTheInvariant := by
  unfold Obligations.ResetMeetsTheInvariant
  exact resetFor_inv (by decide)

/-! ## The three parts of the load -/

theorem read_storeWords_outside {base a : Nat} {ws : List Word} (m : Memory) (h : a < base ∨ base + ws.length ≤ a) :
    (storeWords base ws m).read a = m.read a := by
  induction ws generalizing base m with
  | nil => rfl
  | cons w ws ih =>
    rw [List.length_cons] at h
    rw [storeWords, ih _ (by omega), Memory.read_write_other _ _ (by omega)]

theorem read_storeWords_inside {base k : Nat} {ws : List Word} (m : Memory) (h : k < ws.length) :
    (storeWords base ws m).read (base + k) = ws[k] := by
  induction ws generalizing base k m with
  | nil => cases h
  | cons w ws ih =>
    rw [storeWords]
    cases k with
    | zero => exact (read_storeWords_outside _ (.inl (by omega))).trans (Memory.read_write_same ..)
    | succ k =>
      rw [show base + (k + 1) = base + 1 + k by omega, List.getElem_cons_succ]
      exact ih _ _

theorem storeCells_append (xs ys : List (Nat × Word)) (m : Memory) :
    storeCells (xs ++ ys) m = storeCells ys (storeCells xs m) := by
  induction xs generalizing m with
  | nil => rfl
  | cons x xs ih => exact ih _

theorem read_storeCells_other {cells : List (Nat × Word)} {a : Nat} (m : Memory) (h : ∀ p ∈ cells, p.1 ≠ a) :
    (storeCells cells m).read a = m.read a := by
  induction cells generalizing m with
  | nil => rfl
  | cons p rest ih =>
    obtain ⟨hp, hrest⟩ := List.forall_mem_cons.1 h
    rw [storeCells, ih _ hrest, Memory.read_write_other _ _ hp.symm]

/-- The last entry for an address stands. -/
theorem read_storeCells_last {pre post : List (Nat × Word)} {a : Nat} {v : Word} (m : Memory)
    (h : ∀ p ∈ post, p.1 ≠ a) : (storeCells (pre ++ (a, v) :: post) m).read a = v := by
  rw [storeCells_append, storeCells, read_storeCells_other _ h, Memory.read_write_same]

theorem presetRegs_append (xs ys : List (PresetReg × Word)) (s : State) :
    presetRegs (xs ++ ys) s = presetRegs ys (presetRegs xs s) := by
  induction xs generalizing s with
  | nil => rfl
  | cons x xs ih => exact ih _

theorem presetContent_presetReg_same (s : State) (r : PresetReg) (w : Word) :
    presetContent r (presetReg s r w) = .word w := by
  cases r with
  | r n => exact State.setReg_reg_same s n _
  | i1 => rfl
  | i2 => rfl
  | br => rfl

theorem presetContent_presetReg_other (s : State) {r q : PresetReg} (w : Word) (h : r ≠ q) :
    presetContent q (presetReg s r w) = presetContent q s := by
  cases r <;> cases q
  case r.r n k => exact State.setReg_reg_other s _ fun hn => h (congrArg _ hn)
  case i1.i1 => exact absurd rfl h
  case i2.i2 => exact absurd rfl h
  case br.br => exact absurd rfl h
  all_goals rfl

theorem presetContent_presetRegs_other {rs : List (PresetReg × Word)} {q : PresetReg} (s : State)
    (h : ∀ p ∈ rs, p.1 ≠ q) : presetContent q (presetRegs rs s) = presetContent q s := by
  induction rs generalizing s with
  | nil => rfl
  | cons p rest ih =>
    obtain ⟨hp, hrest⟩ := List.forall_mem_cons.1 h
    rw [presetRegs, ih _ hrest, presetContent_presetReg_other _ _ hp]

/-- The last entry for a register stands. -/
theorem presetContent_presetRegs_last {pre post : List (PresetReg × Word)} {q : PresetReg} {v : Word} (s : State)
    (h : ∀ p ∈ post, p.1 ≠ q) : presetContent q (presetRegs (pre ++ (q, v) :: post) s) = .word v := by
  rw [presetRegs_append, presetRegs, presetContent_presetRegs_other _ h, presetContent_presetReg_same]

/-- The part of the state INIT_REGS cannot name (R231(3)). -/
def SameButPresets (s t : State) : Prop :=
  t.cfg = s.cfg ∧ t.mem = s.mem ∧ t.pc = s.pc ∧ t.spr = s.spr ∧ t.tsp = s.tsp ∧ t.ir = s.ir ∧ t.cr = s.cr ∧
    t.run = s.run ∧ t.conds = s.conds

theorem presetReg_same (s : State) (r : PresetReg) (w : Word) : SameButPresets s (presetReg s r w) := by
  cases r <;> exact ⟨rfl, rfl, rfl, rfl, rfl, rfl, rfl, rfl, rfl⟩

theorem presetRegs_same (rs : List (PresetReg × Word)) (s : State) : SameButPresets s (presetRegs rs s) := by
  induction rs generalizing s with
  | nil => exact ⟨rfl, rfl, rfl, rfl, rfl, rfl, rfl, rfl, rfl⟩
  | cons p rest ih =>
    change SameButPresets s (presetRegs rest (presetReg s p.1 p.2))
    have hhead := presetReg_same s p.1 p.2
    have htail := ih (presetReg s p.1 p.2)
    unfold SameButPresets at hhead htail ⊢
    simpa only [hhead] using htail

/-! ## The started block -/

/-- The memory a run starts with: the program, INIT_MEM over it, in a memory of zeros. -/
def loadedMem (c : Config) (img : LoadImage) : Memory :=
  storeCells img.initMem (storeWords c.pcOrigin img.program [])

theorem startWith_eq (img : LoadImage) (s : State) :
    startWith img s = presetRegs img.initRegs ((State.resetFor s.cfg).setMem (loadedMem s.cfg img)) := rfl

theorem presetContent_reset (c : Config) (m : Memory) (q : PresetReg) :
    presetContent q ((State.resetFor c).setMem m) = .undef := by
  cases q with
  | r n => exact resetFor_reg c n
  | i1 => rfl
  | i2 => rfl
  | br => rfl

/-- Settles O16: what each address reads after the two stores, what each register holds after the presets, and the rest
as reset left it. -/
theorem loadImageIsPlaced : Obligations.LoadImageIsPlaced := by
  unfold Obligations.LoadImageIsPlaced
  intro s img hcfg
  obtain ⟨-, hsize, -, hwin, hstack, -⟩ := Config.wf_iff.1 hcfg
  obtain ⟨-, hmem, hpc, hspr, htsp, hir, hcr, hrun, hconds⟩ :=
    presetRegs_same img.initRegs ((State.resetFor s.cfg).setMem (loadedMem s.cfg img))
  rw [State.setMem_mem] at hmem
  simp only [startWith_eq, hmem, hpc, hspr, htsp, hir, hcr, hrun, hconds]
  refine ⟨?_, ?_, ?_, ?_, ?_, ?_, ?_, ?_, rfl, rfl, rfl, rfl⟩
  · intro k hk hother
    rw [loadedMem, read_storeCells_other _ hother, read_storeWords_inside _ hk]
  · intro a v pre post hsplit hlast
    rw [loadedMem, hsplit, read_storeCells_last _ hlast]
  · intro a hother hout
    rw [loadedMem, read_storeCells_other _ hother, read_storeWords_outside _ hout]
    rfl
  · intro r v pre post hsplit hlast
    rw [hsplit, presetContent_presetRegs_last _ hlast]
  · intro r hother
    rw [presetContent_presetRegs_other _ hother, presetContent_reset]
  · exact toInt_ofNat_of_le (by omega)
  · exact toInt_ofNat_of_le (by omega)
  · exact toInt_ofNat_of_le (by omega)

/-! ## The invariant of the started block -/

/-- Memory in canonical form with nothing listed outside `size` words (R40). -/
def Memory.Fits (size : Nat) (m : Memory) : Prop := m.wf = true ∧ ∀ p ∈ m, p.1 < size

theorem Memory.Fits.write {size a : Nat} {m : Memory} (h : m.Fits size) (ha : a < size) (v : Word) :
    (m.write a v).Fits size := by
  obtain ⟨hwf, hbound⟩ := h
  refine ⟨Memory.wf_write m a v hwf, fun p hp => ?_⟩
  rcases Memory.mem_write hp with hold | hnew
  · exact hbound p hold
  · exact hnew ▸ ha

theorem fits_storeWords {size base : Nat} {ws : List Word} {m : Memory} (h : m.Fits size)
    (hws : base + ws.length ≤ size) : (storeWords base ws m).Fits size := by
  induction ws generalizing base m with
  | nil => exact h
  | cons w ws ih =>
    rw [List.length_cons] at hws
    exact ih (h.write (by omega) w) (by omega)

theorem fits_storeCells {size : Nat} {cells : List (Nat × Word)} {m : Memory} (h : m.Fits size)
    (hcells : ∀ p ∈ cells, p.1 < size) : (storeCells cells m).Fits size := by
  induction cells generalizing m with
  | nil => exact h
  | cons p rest ih =>
    obtain ⟨hp, hrest⟩ := List.forall_mem_cons.1 hcells
    exact ih (h.write hp p.2) hrest

theorem State.Inv.setMem {s : State} {m : Memory} (h : s.Inv) (hm : m.Fits s.cfg.memSize) : (s.setMem m).Inv :=
  ⟨h.cfg, hm.1, hm.2, h.sprBase, h.stackOrder, h.stackTop, h.absentRegs, h.log⟩

/-- The registers a legal image presets exist (R231). -/
def PresetReg.Present (c : Config) : PresetReg → Prop
  | .r n => n.toNat < c.nregs
  | .i1 | .i2 | .br => True

theorem State.Inv.presetReg {s : State} {r : PresetReg} (h : s.Inv) (hr : r.Present s.cfg) (w : Word) :
    (presetReg s r w).Inv := by
  cases r with
  | r n => exact h.setReg (State.hasReg_iff.2 hr)
  | i1 => exact h.congr rfl rfl rfl rfl rfl h.log
  | i2 => exact h.congr rfl rfl rfl rfl rfl h.log
  | br => exact h.congr rfl rfl rfl rfl rfl h.log

theorem State.Inv.presetRegs {rs : List (PresetReg × Word)} {s : State} (h : s.Inv)
    (hrs : ∀ p ∈ rs, p.1.Present s.cfg) : (presetRegs rs s).Inv := by
  induction rs generalizing s with
  | nil => exact h
  | cons p rest ih =>
    obtain ⟨hp, hrest⟩ := List.forall_mem_cons.1 hrs
    obtain ⟨hcfg, -⟩ := presetReg_same s p.1 p.2
    exact ih (h.presetReg hp p.2) (hcfg ▸ hrest)

theorem LoadImage.wf_iff {c : Config} {img : LoadImage} : img.wf c = true ↔
    img.program.length ≤ c.iwinSize ∧ (∀ p ∈ img.initMem, p.1 < c.memSize) ∧ ∀ p ∈ img.initRegs, p.1.Present c := by
  simp only [LoadImage.wf, Bool.and_eq_true, decide_eq_true_eq, List.all_eq_true, and_assoc]
  refine and_congr_right fun _ => and_congr_right fun _ => forall₂_congr fun p _ => ?_
  cases p.1 <;> simp [PresetReg.Present]

theorem fits_loadedMem {c : Config} {img : LoadImage} (hc : c.wf = true) (himg : img.wf c = true) :
    (loadedMem c img).Fits c.memSize := by
  obtain ⟨-, -, -, hwin, -⟩ := Config.wf_iff.1 hc
  obtain ⟨hlen, hcells, -⟩ := LoadImage.wf_iff.1 himg
  exact fits_storeCells (fits_storeWords ⟨rfl, nofun⟩ (by omega)) hcells

/-- Settles O14: reset meets the invariant, and each part of a legal load keeps it. -/
theorem startedBlockMeetsTheInvariant : Obligations.StartedBlockMeetsTheInvariant := by
  unfold Obligations.StartedBlockMeetsTheInvariant
  intro s img hcfg himg
  obtain ⟨-, -, hregs⟩ := LoadImage.wf_iff.1 himg
  exact ((resetFor_inv hcfg).setMem (fits_loadedMem hcfg himg)).presetRegs hregs

end Sys2Proof.Machine
end

section
/-! The assembler (spec/46_assembler.md R181 to R189): what its two passes give when they succeed. -/

namespace Sys2Proof.Machine

/-! ## The first pass -/

theorem preEncodeLine_conditionalJump {m : Token} (hm : isConditionalJump m = true) (a b target : Token) :
    preEncodeLine [m, a, b, target] = .ok ([[['C', 'M', 'P'], a, b], [m, target]], []) := by
  simp only [isConditionalJump, Bool.or_eq_true, beq_iff_eq, or_assoc] at hm
  rcases hm with rfl | rfl | rfl | rfl | rfl | rfl <;> rfl

theorem preEncodeLine_def {name value : Token} {n : AddrField} (hname : isName name = true)
    (hvalue : parseField value = .ok n) : preEncodeLine [['D', 'E', 'F'], name, value] = .ok ([], [(name, n)]) := by
  simp only [preEncodeLine, hname, hvalue, ↓reduceIte, Except.map]

theorem preEncode_singleton {line : List Token} {out : List (List Token)} {defs : VarTable} (vt : VarTable)
    (h : preEncodeLine line = .ok (out, defs)) : preEncode [line] vt = .ok (out, defs ++ vt) := by
  simp only [preEncode, h, Except.bind, Except.map, List.append_nil]

/-- Settles O60, from what the first pass makes of one such line. -/
theorem pseudoInstructionsExpand : Obligations.PseudoInstructionsExpand := by
  unfold Obligations.PseudoInstructionsExpand
  exact ⟨fun m a b target vt hm => preEncode_singleton vt (preEncodeLine_conditionalJump hm a b target),
    fun name value n vt hname hvalue => preEncode_singleton vt (preEncodeLine_def hname hvalue)⟩

theorem nil_notMem_of_preEncode {lines : List (List Token)} {vt : VarTable} {r : List (List Token) × VarTable}
    (h : preEncode lines vt = .ok r) : [] ∉ lines := by
  induction lines generalizing vt r with
  | nil => exact List.not_mem_nil
  | cons line rest ih =>
    obtain ⟨⟨out, defs⟩, hline, hmap⟩ := Except.bind_ok_iff.1 h
    obtain ⟨r', hrest, -⟩ := Except.map_ok_iff.1 hmap
    rw [List.mem_cons, not_or]
    refine ⟨?_, ih hrest⟩
    rintro rfl
    cases hline

/-! ## The second pass -/

/-- The number of operand tokens of a mnemonic is the number of operands its instruction uses (R67, R181). -/
def TakesOperands (n : Nat) (mk : Operand → Operand → Instr) : Prop :=
  ∀ o1 o2, (mk o1 o2).op1 = o1 ∧ (mk o1 o2).op2 = o2 ∧ ((mk o1 o2).usesOp1 = true ↔ 1 ≤ n) ∧
    ((mk o1 o2).usesOp2 = true ↔ 2 ≤ n)

theorem takesOperands_of_mem : ∀ row ∈ mnemonicTable, TakesOperands row.2.1 row.2.2 := by
  simp [mnemonicTable, TakesOperands, Instr.op1, Instr.op2, Instr.usesOp1, Instr.usesOp2]

theorem mem_of_findMnemonic {t : Token} {table : List (Token × Nat × (Operand → Operand → Instr))}
    {x : Nat × (Operand → Operand → Instr)} (h : findMnemonic t table = some x) : ∃ name, (name, x) ∈ table := by
  induction table with
  | nil => cases h
  | cons row rest ih =>
    obtain ⟨name, y⟩ := row
    unfold findMnemonic at h
    split at h
    · cases h
      exact ⟨name, List.mem_cons_self⟩
    · obtain ⟨name', hmem⟩ := ih h
      exact ⟨name', List.mem_cons_of_mem _ hmem⟩

theorem unusedZero_of_takesOperands {n : Nat} {mk : Operand → Operand → Instr} (h : TakesOperands n mk)
    {o1 o2 : Operand} (h1 : n = 0 → o1 = .missing) (h2 : n ≤ 1 → o2 = .missing) : (mk o1 o2).unusedZero = true := by
  obtain ⟨hop1, hop2, huses1, huses2⟩ := h o1 o2
  simp only [Instr.unusedZero, Bool.and_eq_true, Bool.or_eq_true, decide_eq_true_eq, hop1, hop2, huses1, huses2]
  exact ⟨(Nat.eq_zero_or_pos n).symm.imp_right h1, (lt_or_ge 1 n).imp_right h2⟩

theorem unusedZero_of_encodeTokens {vt : VarTable} {m : Token} {operands : List Token} {i : Instr} {us : List Token}
    (h : encodeTokens vt m operands = .ok (i, us)) : i.unusedZero = true := by
  unfold encodeTokens at h
  cases hrow : findMnemonic m mnemonicTable with
  | none => simp only [hrow] at h; cases h
  | some x =>
    obtain ⟨n, mk⟩ := x
    obtain ⟨name, hmem⟩ := mem_of_findMnemonic hrow
    have htakes : TakesOperands n mk := takesOperands_of_mem _ hmem
    simp only [hrow] at h
    by_cases hn : operands.length = n
    · subst hn
      rw [if_pos rfl] at h
      match operands with
      | [] =>
        cases h
        exact unusedZero_of_takesOperands htakes (fun _ => rfl) fun _ => rfl
      | [a] =>
        obtain ⟨⟨o, w⟩, -, ⟨⟩⟩ := Except.map_ok_iff.1 h
        exact unusedZero_of_takesOperands htakes nofun fun _ => rfl
      | a :: b :: rest =>
        obtain ⟨⟨o1, w1⟩, -, hmap⟩ := Except.bind_ok_iff.1 h
        obtain ⟨⟨o2, w2⟩, -, ⟨⟩⟩ := Except.map_ok_iff.1 hmap
        exact unusedZero_of_takesOperands htakes nofun fun hle => absurd hle (by simp)
    · simp only [hn, ↓reduceIte] at h
      cases h

/-- The zero word is the word of one instruction alone, the one that is not well-formed (R70). -/
theorem encode_ne_zero_of_wf {i : Instr} (h : i.wf = true) : encode i ≠ 0 := by
  intro hz
  have hadd : decode 0 = .ok (.add .missing .missing) := by decide
  have hi : i = .add .missing .missing := by
    rw [← hz, decode_encode] at hadd
    exact Except.ok.inj hadd
  subst hi
  cases h

/-- What is asked of an emitted word (R189). -/
def Executable (w : Word) : Prop := w ≠ 0 ∧ ∃ i : Instr, decode w = .ok i ∧ i.canonical = true

theorem executable_of_encodeLine {vt : VarTable} {line : List Token} {w : Word} {us : List Token}
    (h : encodeLine vt line = .ok (w, us)) : Executable w := by
  cases line with
  | nil => cases h
  | cons m operands =>
    obtain ⟨⟨i, us'⟩, htokens, hword⟩ := Except.bind_ok_iff.1 h
    by_cases hwf : i.wf = true
    · simp only [hwf, ↓reduceIte] at hword
      cases hword
      refine ⟨encode_ne_zero_of_wf hwf, i, decode_encode i, ?_⟩
      rw [Instr.canonical, hwf, unusedZero_of_encodeTokens htokens]
      rfl
    · simp only [hwf] at hword
      cases hword

theorem executable_of_encodeLines {vt : VarTable} {lines : List (List Token)} {ws : List Word} {us : List Token}
    (h : encodeLines vt lines = .ok (ws, us)) : ∀ w ∈ ws, Executable w := by
  induction lines generalizing ws us with
  | nil =>
    cases h
    exact nofun
  | cons line rest ih =>
    obtain ⟨⟨w, us1⟩, hline, hmap⟩ := Except.bind_ok_iff.1 h
    obtain ⟨⟨ws', us2⟩, hrest, ⟨⟩⟩ := Except.map_ok_iff.1 hmap
    exact List.forall_mem_cons.2 ⟨executable_of_encodeLine hline, ih hrest⟩

/-- Settles O59: the first pass rejects an empty entry, the second gives an executable word for each line, and the
length is tested last. -/
theorem assembledWordsAreExecutable : Obligations.AssembledWordsAreExecutable := by
  unfold Obligations.AssembledWordsAreExecutable
  intro c lines ws warnings h
  obtain ⟨⟨ls, vt⟩, hpre, hrest⟩ := Except.bind_ok_iff.1 h
  obtain ⟨⟨ws', us⟩, hlines, hlen⟩ := Except.bind_ok_iff.1 hrest
  split at hlen
  · cases hlen
    exact ⟨nil_notMem_of_preEncode hpre, ‹_›, executable_of_encodeLines hlines⟩
  · cases hlen

end Sys2Proof.Machine
end
